-- ==== Sys2Proof/Word.lean ====
section
/-! DEFINITION. Bytes, byte sequences and the 26-byte string of a header (spec/00_scope.md R7). -/

namespace Sys2Proof

/-- A byte: an 8-bit unsigned value (R7). -/
abbrev Byte := BitVec 8

/-- A finite sequence of bytes, index 0 the first on the wire (R7). -/
abbrev Bytes := List Byte

/-- `Bytes26`: a byte sequence of length exactly 26 (R7). -/
structure Bytes26 where
  toList : Bytes
  size_eq : toList.length = 26
  deriving DecidableEq, Repr

end Sys2Proof
end

