-- ==== Sys2Proof/Config.lean ====
section
/-! DEFINITION. The block's parameters and external collaborators (spec/00_scope.md R5, R6). -/

namespace Sys2Proof

/-- The external collaborators of R5: two digests and the payload codec, arbitrary functions of
which a proof may assume nothing but that they are functions (spec/41_integrity.md R102). The type
`Batch` of a record batch, open like them (R5, R6), is an argument. -/
structure Collaborators (Batch : Type) where
  /-- `DIGEST32`, the digest over header bytes (R5, R100). -/
  digest32 : Bytes → BitVec 32
  /-- `DIGEST64`, the digest over payload bytes (R5, R101). -/
  digest64 : Bytes → BitVec 64
  /-- `PDECODE`, partial by decision D5: `none` is a rejected payload (R5). -/
  pdecode : Bytes → Option (List Batch)
  /-- `PENCODE`, total by decision D5 (R5). -/
  pencode : List (List Batch) → Bytes

namespace Config

/-- `HDR_SIZE` (R6). -/
abbrev hdrSize : Nat := 26

/-- `NEST_DELTA` (R6). -/
abbrev nestDelta : Nat := 4

/-- One past the greatest `payloadLength`: `PL_WIDTH` is 32 (R6). -/
abbrev lengthBound : Nat := 2 ^ 32

/-- `ASSEMBLER` of R6. The machine holds the choice as plain data: the assembler's registers exist
exactly when it is present (spec/10_state.md R35; log entry 3). -/
inductive AssemblerOption where
  | absent
  | present
  deriving DecidableEq, Repr

/-- Where a header field lies: byte offset and width in bytes (spec/30_encoding.md R62). -/
structure FieldAt where
  off : Nat
  width : Nat
  deriving DecidableEq, Repr

/-- `HDR_LAYOUT`: the seven rows of R62 (decision D2; log entry 11). -/
def versionAt : FieldAt := ⟨0, 1⟩
def headerChecksumAt : FieldAt := ⟨1, 4⟩
def compressionAt : FieldAt := ⟨5, 1⟩
def payloadLengthAt : FieldAt := ⟨6, 4⟩
def metaAt : FieldAt := ⟨10, 4⟩
def correlationIdAt : FieldAt := ⟨14, 4⟩
def payloadChecksumAt : FieldAt := ⟨18, 8⟩

/-- The seven fields in wire order (R62). -/
def hdrLayout : List FieldAt :=
  [versionAt, headerChecksumAt, compressionAt, payloadLengthAt, metaAt, correlationIdAt,
    payloadChecksumAt]

/-- Which names stand for a record batch, OPEN: nothing can be proved of it (log entry 2). -/
opaque isBatch : Nat → Bool

/-- The hardware's own `Batch`, OPEN (R5, R6): names of which nothing is known, not even that there
is one. A name says which batch it is and nothing of what is in it (DESIGN CHOICE, log entry 2). -/
structure Batch where
  name : Nat
  isOne : isBatch name = true
  deriving DecidableEq, Repr

/-- The hardware's own `DIGEST32`, OPEN (R5; decision D4; log entry 1). -/
opaque digest32 : Bytes → BitVec 32

/-- The hardware's own `DIGEST64`, OPEN (R5; decision D4; log entry 1). -/
opaque digest64 : Bytes → BitVec 64

/-- The hardware's own `PDECODE`, OPEN (R5; decision D5; log entry 1). -/
opaque pdecode : Bytes → Option (List Batch)

/-- The hardware's own `PENCODE`, OPEN (R5; decision D5; log entry 1). -/
opaque pencode : List (List Batch) → Bytes

/-- The collaborators the machine is built with, fixed before the first RESET and the same for
every channel and every call (spec/70_reset_and_hazards.md R203). -/
def collaborators : Collaborators Batch :=
  { digest32 := digest32, digest64 := digest64, pdecode := pdecode, pencode := pencode }

end Config

namespace Collaborators

variable {Batch : Type}

/-- CODEC-NEST4 (decision D9): nesting a decoded payload one level deeper adds 4 bytes. A named
property of the payload codec that a claim may take as a premise, never a law of FHC. -/
def Nest4 (c : Collaborators Batch) : Prop :=
  ∀ P S, c.pdecode P = some S → (c.pencode [S]).length = P.length + 4

/-- CODEC-RT (decision D9): `decode2`, the codec's decoder of nested sequences, undoes `PENCODE`.
A named property of the payload codec that a claim may take as a premise. -/
def RoundTrip (c : Collaborators Batch) (decode2 : Bytes → Option (List (List Batch))) : Prop :=
  ∀ T, decode2 (c.pencode T) = some T

end Collaborators

end Sys2Proof
end

