-- ==== Sys2Proof/Machine/Bytes.lean ====
section
/-! DEFINITION. Byte order and buffer access: `le_N`, `rd_le`, `MemRead` and `MemWrite` of
spec/00_scope.md R8. -/

namespace Sys2Proof.Machine

/-- The value of bytes read least significant first (R8, R42). -/
def leValue : Bytes → Nat
  | [] => 0
  | b :: bs => b.toNat + 256 * leValue bs

/-- `le_{8n}(v)`: the `n` low bytes of `v`, least significant first (R8). -/
def leBytes : Nat → Nat → Bytes
  | 0, _ => []
  | n + 1, v => BitVec.ofNat 8 v :: leBytes n (v / 256)

/-- `rd_le(B, off, n)` (R8). -/
def rdLe (B : Bytes) (off n : Nat) : Nat :=
  leValue ((B.drop off).take n)

/-- `MemRead(buf, off, n)`: `buf[off : off+n)`, `none` outside the buffer (R8, R40). -/
def memRead (buf : Bytes) (off n : Nat) : Option Bytes :=
  if off + n ≤ buf.length then some ((buf.drop off).take n) else none

/-- `MemWrite(buf, off, n, v)`: `buf[off : off+n)` replaced by `le_{8n}(v)` (R8). -/
def memWrite (buf : Bytes) (off n v : Nat) : Bytes :=
  buf.take off ++ leBytes n v ++ buf.drop (off + n)

@[simp] theorem length_leBytes (n v : Nat) : (leBytes n v).length = n := by
  induction n generalizing v with
  | zero => rfl
  | succ n ih => simp [leBytes, ih]

/-- A write inside a buffer keeps its length. -/
theorem length_memWrite {buf : Bytes} {off n : Nat} (v : Nat) (h : off + n ≤ buf.length) :
    (memWrite buf off n v).length = buf.length := by
  simp only [memWrite, List.length_append, List.length_take, length_leBytes, List.length_drop]
  omega

end Sys2Proof.Machine
end

