-- ==== Sys2Proof/Syntax.lean ====
section
/-! DEFINITION. The commands of FHC, one constructor per row of spec/opcode_table.json
(spec/30_encoding.md R66), and the pseudo-instruction XCHG (R69). -/

namespace Sys2Proof

/-- A command: a block step or a host event (R66). Only DELIVER has an operand. -/
inductive Instr where
  /-- HDEC, 0x01: header decode (spec/42_orchestrator.md R125). -/
  | hdec
  /-- PVER, 0x02: payload slice and verification (R131). -/
  | pver
  /-- PDEC, 0x03: payload decode (R134). -/
  | pdec
  /-- XFRM, 0x04: transform (R136). -/
  | xfrm
  /-- PENC, 0x05: payload encode (R138). -/
  | penc
  /-- HFIN, 0x06: payload checksum and two-pass header emission (R140). -/
  | hfin
  /-- SEND, 0x07: concatenate and send (R144). -/
  | send
  /-- AFRM, 0x08: hand a complete frame to the orchestrator (R162). -/
  | afrm
  /-- DELIVER, 0x10: one inbound delivery event (R121, R160). -/
  | deliver (bytes : Bytes)
  /-- CLOSE, 0x11: normal disconnect (R151). -/
  | close
  /-- RESET, 0x12: a connection was accepted (R150). -/
  | reset
  deriving DecidableEq, Repr

/-- The seven block steps of one exchange, in the order of R120. -/
def Instr.exchangeSteps : List Instr :=
  [.hdec, .pver, .pdec, .xfrm, .penc, .hfin, .send]

/-- `XCHG {bytes}`: the canonical exchange as a list of commands (R69). -/
def Instr.xchg (bytes : Bytes) : List Instr :=
  .deliver bytes :: exchangeSteps

end Sys2Proof
end

