-- ==== Sys2Proof/Machine/State.lean ====
section
/-! DEFINITION. The architectural state of one FHC channel (spec/10_state.md) and its value right
after RESET (R37). -/

namespace Sys2Proof.Machine

/-- The values of the sequencer register `st` (R22); the codes 0x9 to 0xD have no constructor. -/
inductive St where
  | idle
  | received
  | headerDecoded
  | payloadVerified
  | payloadDecoded
  | transformed
  | payloadEncoded
  | headerFinalized
  | sent
  | failed
  | closed
  deriving DecidableEq, Repr

/-- The values of the fault register `err` (R23; spec/60_exceptions.md R170). -/
inductive FaultCode where
  | none
  | shortReadHeader
  | shortReadPayload
  | integrityFailure
  | codecFailure
  | lengthOverflow
  | orderViolation
  | illegalCommand
  deriving DecidableEq, Repr

/-- The FrameHeader record (R27; spec/30_encoding.md R62). Every field always holds a value
(spec/40_header_codec.md R91). -/
structure Header where
  version : BitVec 8
  headerChecksum : BitVec 32
  compression : BitVec 8
  payloadLength : BitVec 32
  /-- The field `meta`; the plain word is reserved in Lean. -/
  metaWord : BitVec 32
  correlationId : BitVec 32
  payloadChecksum : BitVec 64
  deriving DecidableEq, Repr

/-- An event on an output port (R33). -/
inductive Event where
  /-- Port `tx`: one write of a whole frame. -/
  | tx (frame : Bytes)
  /-- Port `fault`: the 8-bit fault code. -/
  | fault (code : BitVec 8)
  /-- Port `notify`: the disconnect notification. -/
  | notifyDisconnect
  /-- Port `obs`: the observer event `connect`. -/
  | obsConnect
  /-- Port `obs`: the observer event `disconnect`. -/
  | obsDisconnect
  deriving DecidableEq, Repr

/-- An event on an input port (R33). -/
inductive HostEvent where
  | reset
  | deliver (bytes : Bytes)
  | close
  deriving DecidableEq, Repr

/-- The reader state `amode` of the optional assembler (R35). -/
inductive AMode where
  | wantHeader
  | wantPayload (n : BitVec 32)
  | frameReady
  deriving DecidableEq, Repr

/-- The registers that exist only with `ASSEMBLER = present` (R35). -/
structure Assembler where
  amode : AMode
  abuf : Bytes
  deriving DecidableEq, Repr

/-- The assembler registers after RESET (R37). -/
def Assembler.reset : Assembler :=
  { amode := .wantHeader, abuf := [] }

namespace Channel

/-- The state of one channel, for any type of record batch (spec/00_scope.md R5, R6). -/
structure State (Batch : Type) where
  /-- Whether the channel exists: false before its first RESET (spec/70_reset_and_hazards.md R200;
  log entry 7). -/
  created : Bool
  /-- The sequencer register (R22). -/
  st : St
  /-- The fault register (R23). -/
  err : FaultCode
  /-- The delivery buffer (R26). -/
  rx : Option Bytes
  /-- The header register (R27). -/
  hdr : Option Header
  /-- The inbound payload (R28). -/
  pin : Option Bytes
  /-- The decoded inbound sequence (R29). -/
  sdec : Option (List Batch)
  /-- The transformed sequence (R29). -/
  tseq : Option (List (List Batch))
  /-- The outbound payload (R30). -/
  pout : Option Bytes
  /-- The checksum-basis bytes, pass 1 of the header encode (R31). -/
  basis : Option Bytes26
  /-- The final header bytes, pass 2 of the header encode (R31). -/
  hbytes : Option Bytes26
  /-- The history of output events (R34). -/
  out : List Event
  /-- The assembler registers: `none` when `ASSEMBLER = absent` (R35; log entry 3). -/
  asm : Option Assembler
  /-- The command stream the host has written and the block has not yet taken
  (spec/30_encoding.md R67; log entry 4). -/
  cmds : Bytes
  /-- The host events that wait at the input ports, oldest first (spec/42_orchestrator.md R152;
  log entry 5). -/
  hostq : List HostEvent
  deriving DecidableEq, Repr

end Channel

/-- The state of the machine: one channel, with the hardware's own record batches. -/
abbrev State : Type := Channel.State Config.Batch

/-- Reasons a step could stop with a host-level fault. There is none: every fault of the spec is a
state the channel goes on from (spec/60_exceptions.md R172), so no constructor is needed (safe). -/
inductive Fault where
  deriving DecidableEq, Repr

/-- Reasons a step could be refused. -/
inductive Refusal where
  /-- An instruction with no meaning yet, raised by exec's arm for it alone; no arm raises it now.
  Safe: a refused step proves nothing. -/
  | notModelled (mnemonic : String)
  deriving DecidableEq, Repr

/-- What a step of a channel comes to. -/
abbrev Channel.Outcome (Batch : Type) : Type :=
  Host.Outcome (Channel.State Batch) Fault Refusal

variable {Batch : Type}

/-- The `ASSEMBLER` parameter of this channel (spec/00_scope.md R6): present exactly when its
registers exist. -/
def Channel.State.assembler (s : Channel.State Batch) : Config.AssemblerOption :=
  if s.asm.isSome then .present else .absent

/-- A channel before its first RESET (spec/70_reset_and_hazards.md R200), with the `ASSEMBLER`
choice `asm`: nothing reads its registers, and its output history is empty (R37). -/
def Channel.State.uncreated (asm : Option Assembler) : Channel.State Batch :=
  { created := false, st := .idle, err := .none,
    rx := none, hdr := none, pin := none, sdec := none, tseq := none, pout := none,
    basis := none, hbytes := none,
    out := [], asm := asm, cmds := [], hostq := [] }

/-- The channel right after its first RESET (R37, R150): `st = Idle`, `err = NONE`, every exchange
register `none`, the history of a new channel with RESET's own `obs(connect)`, and the assembler
absent, its default (spec/00_scope.md R6). -/
def Channel.State.reset : Channel.State Batch :=
  { created := true, st := .idle, err := .none,
    rx := none, hdr := none, pin := none, sdec := none, tseq := none, pout := none,
    basis := none, hbytes := none,
    out := [.obsConnect], asm := none, cmds := [], hostq := [] }

/-- The machine right after its first RESET (R37, R150). -/
def State.reset : State :=
  Channel.State.reset

end Sys2Proof.Machine
end

