-- ==== Sys2Proof/Machine/Codec.lean ====
section
/-! DEFINITION. The FrameHeader codec: HDR.DECODE, HDR.ENCODE and withHC
(spec/40_header_codec.md; layout of spec/30_encoding.md R62). -/

namespace Sys2Proof.Machine

open Sys2Proof.Config

/-- The value of one field of a 26-byte header (spec/30_encoding.md R63). -/
def readField (H : Bytes) (f : FieldAt) : Nat :=
  rdLe H f.off f.width

/-- A field's value written at its place (spec/30_encoding.md R63). -/
def writeField (H : Bytes) (f : FieldAt) (v : Nat) : Bytes :=
  memWrite H f.off f.width v

/-- `HDR.DECODE` (R80); `none` when fewer than 26 bytes are there (R81). -/
def decodeHeader (B : Bytes) : Option Header :=
  match memRead B 0 hdrSize with
  | none => none
  | some H =>
    some
      { version := BitVec.ofNat 8 (readField H versionAt)
        headerChecksum := BitVec.ofNat 32 (readField H headerChecksumAt)
        compression := BitVec.ofNat 8 (readField H compressionAt)
        payloadLength := BitVec.ofNat 32 (readField H payloadLengthAt)
        metaWord := BitVec.ofNat 32 (readField H metaAt)
        correlationId := BitVec.ofNat 32 (readField H correlationIdAt)
        payloadChecksum := BitVec.ofNat 64 (readField H payloadChecksumAt) }

/-- The seven writes of `HDR.ENCODE` into 26 zero bytes (R83). -/
def headerBytes (h : Header) : Bytes :=
  let H := List.replicate hdrSize (0 : Byte)
  let H := writeField H versionAt h.version.toNat
  let H := writeField H headerChecksumAt h.headerChecksum.toNat
  let H := writeField H compressionAt h.compression.toNat
  let H := writeField H payloadLengthAt h.payloadLength.toNat
  let H := writeField H metaAt h.metaWord.toNat
  let H := writeField H correlationIdAt h.correlationId.toNat
  writeField H payloadChecksumAt h.payloadChecksum.toNat

/-- The seven writes stay inside the 26 bytes (R83). -/
theorem length_headerBytes (h : Header) : (headerBytes h).length = 26 := by
  simp [headerBytes, writeField, memWrite, hdrSize, versionAt, headerChecksumAt, compressionAt,
    payloadLengthAt, metaAt, correlationIdAt, payloadChecksumAt]

/-- `HDR.ENCODE`, total (R83). -/
def encodeHeader (h : Header) : Bytes26 :=
  { toList := headerBytes h, size_eq := length_headerBytes h }

/-- `withHC(h, v)` (R92). -/
def withHC (h : Header) (v : BitVec 32) : Header :=
  { h with headerChecksum := v }

end Sys2Proof.Machine
end

