-- ==== Sys2Proof/Machine/Integrity.lean ====
section
/-! DEFINITION. The payload integrity check and the two-pass checksum bootstrap
(spec/41_integrity.md), over any collaborators. -/

namespace Sys2Proof.Machine

variable {Batch : Type}

/-- `PL.VERIFY(P, claimed)`: true is `ok`, false is `IntegrityFailure` (R103). -/
def verifyPayload (c : Collaborators Batch) (P : Bytes) (claimed : BitVec 64) : Bool :=
  decide (c.digest64 P = claimed)

/-- `BASIS(h)`: the header serialised with `headerChecksum` zero (R107). -/
def basisBytes (h : Header) : Bytes26 :=
  encodeHeader (withHC h 0)

/-- `HCHK(h)`: the digest of all 26 basis bytes (R108). -/
def headerCheck (c : Collaborators Batch) (h : Header) : BitVec 32 :=
  c.digest32 (basisBytes h).toList

/-- What `HDR.BOOT` answers: pass-1 bytes, pass-2 bytes and the final header (R109). -/
structure Boot where
  basis : Bytes26
  final : Bytes26
  header : Header
  deriving DecidableEq, Repr

/-- `HDR.BOOT(h)`: the two passes, in their fixed order (R109; spec/70_reset_and_hazards.md
R205). -/
def bootHeader (c : Collaborators Batch) (h : Header) : Boot :=
  let basis := encodeHeader (withHC h 0)
  let checksum := c.digest32 basis.toList
  let final := withHC h checksum
  { basis := basis, final := encodeHeader final, header := final }

end Sys2Proof.Machine
end

