-- ==== Sys2Proof/Machine/Ops.lean ====
section
/-! DEFINITION. The shared operations of every command: register codes, output events, taking a
fault, clearing registers, and when a command is enabled, dropped or out of order. -/

namespace Sys2Proof.Machine

variable {Batch : Type}

/-- The 4-bit value of `st` (spec/10_state.md R22). -/
def St.code : St → BitVec 4
  | .idle => 0x0
  | .received => 0x1
  | .headerDecoded => 0x2
  | .payloadVerified => 0x3
  | .payloadDecoded => 0x4
  | .transformed => 0x5
  | .payloadEncoded => 0x6
  | .headerFinalized => 0x7
  | .sent => 0x8
  | .failed => 0xE
  | .closed => 0xF

/-- The 8-bit value of `err` (spec/60_exceptions.md R170). -/
def FaultCode.code : FaultCode → BitVec 8
  | .none => 0x00
  | .shortReadHeader => 0x01
  | .shortReadPayload => 0x02
  | .integrityFailure => 0x03
  | .codecFailure => 0x04
  | .lengthOverflow => 0x05
  | .orderViolation => 0x06
  | .illegalCommand => 0x07

/-- The set `Busy` of exchange states (spec/42_orchestrator.md R152). -/
def St.busy : St → Bool
  | .idle => false
  | .received => true
  | .headerDecoded => true
  | .payloadVerified => true
  | .payloadDecoded => true
  | .transformed => true
  | .payloadEncoded => true
  | .headerFinalized => true
  | .sent => false
  | .failed => false
  | .closed => false

/-- `st ∈ {Idle, Sent}`: an exchange may start (R121, R162). -/
def St.ready : St → Bool
  | .idle => true
  | .received => false
  | .headerDecoded => false
  | .payloadVerified => false
  | .payloadDecoded => false
  | .transformed => false
  | .payloadEncoded => false
  | .headerFinalized => false
  | .sent => true
  | .failed => false
  | .closed => false

/-- The assembler is present and `amode = FrameReady` (R162). -/
def Channel.State.frameReady (s : Channel.State Batch) : Bool :=
  match s.asm with
  | none => false
  | some a => decide (a.amode = .frameReady)

/-- The channel is busy: inside an exchange, or with a complete frame waiting in the assembler
(R152). -/
def Channel.State.busy (s : Channel.State Batch) : Bool :=
  s.created && (s.st.busy || (s.st.ready && s.frameReady))

/-- One event on an output port, after every earlier one (spec/10_state.md R34). -/
def Channel.State.emit (s : Channel.State Batch) (e : Event) : Channel.State Batch :=
  { s with out := s.out ++ [e] }

/-- `raise Fault(code)`: the fault is latched, the sequencer stops in `Failed` and the fault event
is emitted; every other register keeps its value (spec/60_exceptions.md R171, R172). There is no
return from a fault (R177): only RESET and CLOSE leave `Failed`. -/
def Channel.State.raise (s : Channel.State Batch) (code : FaultCode) : Channel.State Batch :=
  Channel.State.emit { s with err := code, st := .failed } (.fault code.code)

/-- Every exchange register but `rx` to `none` (R121, R162). -/
def Channel.State.clearDerived (s : Channel.State Batch) : Channel.State Batch :=
  { s with
    hdr := none, pin := none, sdec := none, tseq := none, pout := none,
    basis := none, hbytes := none }

/-- Every exchange register to `none` (R150, R151). -/
def Channel.State.clearExchange (s : Channel.State Batch) : Channel.State Batch :=
  Channel.State.clearDerived { s with rx := none }

/-- The assembler registers, where they exist, to their reset values (R150, R151). -/
def Channel.State.clearAssembler (s : Channel.State Batch) : Channel.State Batch :=
  { s with asm := s.asm.map fun _ => Assembler.reset }

/-- The precondition of each command: the table of spec/30_encoding.md R66 with the scheduling rule
of R152, by which no host event is enabled while the channel is busy. Before its first RESET a
channel enables RESET alone (spec/70_reset_and_hazards.md R200). -/
def Channel.State.enabled (s : Channel.State Batch) : Instr → Bool
  | .hdec => s.created && decide (s.st = .received)
  | .pver => s.created && decide (s.st = .headerDecoded)
  | .pdec => s.created && decide (s.st = .payloadVerified)
  | .xfrm => s.created && decide (s.st = .payloadDecoded)
  | .penc => s.created && decide (s.st = .transformed)
  | .hfin => s.created && decide (s.st = .payloadEncoded)
  | .send => s.created && decide (s.st = .headerFinalized)
  | .afrm => s.created && (s.st.ready && s.frameReady)
  | .deliver _ => s.created && (s.st.ready && !s.busy)
  | .close => s.created && ((s.st.ready || decide (s.st = .failed)) && !s.busy)
  | .reset =>
    !s.created ||
      ((s.st.ready || decide (s.st = .failed) || decide (s.st = .closed)) && !s.busy)

/-- The channel drops what it cannot take: in `Failed`, in `Closed` and before the first RESET
(R122; spec/30_encoding.md R68; log entry 7). -/
def Channel.State.drops (s : Channel.State Batch) : Bool :=
  !s.created || decide (s.st = .failed) || decide (s.st = .closed)

/-- A command of the stream that the decoder rejects, or a code that selects no command
(spec/30_encoding.md R67, R68). -/
def Channel.State.illegalCommand (s : Channel.State Batch) : Channel.State Batch :=
  if s.drops then s else s.raise .illegalCommand

/-- A legal command whose precondition does not hold (R122). -/
def Channel.State.notEnabled (s : Channel.State Batch) : Channel.State Batch :=
  if s.drops then s else s.raise .orderViolation

/-- A command taken as written: its effect when it is enabled, else R122. The check precedes the
command's own effects (spec/60_exceptions.md R175). -/
def Channel.State.command (s : Channel.State Batch) (i : Instr)
    (effect : Channel.State Batch → Channel.State Batch) : Channel.State Batch :=
  if s.enabled i then effect s else s.notEnabled

end Sys2Proof.Machine
end

