-- ==== Sys2Proof/Machine/Operands.lean ====
section
/-! DEFINITION. Reading an exchange register as an operand (spec/10_state.md R32). FHC has no other
operand form and no flags (R21, R24). -/

namespace Sys2Proof.Machine

variable {Batch : Type}

/-- Go on with a register's value; a register that holds `none` faults with ORDER_VIOLATION and
never supplies a value (R32; log entry 9). -/
def Channel.State.withRegister {α : Type} (s : Channel.State Batch) (register : Option α)
    (next : α → Channel.State Batch) : Channel.State Batch :=
  match register with
  | none => s.raise .orderViolation
  | some v => next v

end Sys2Proof.Machine
end

