-- ==== Sys2Proof/Machine/BlockSteps.lean ====
section
/-! DEFINITION. The seven block steps of an exchange (spec/42_orchestrator.md R125 to R144). A step
that calls a collaborator is written over any collaborators (`…Under`); the meaning exec uses takes
the machine's own. -/

namespace Sys2Proof.Machine

open Sys2Proof.Config

variable {Batch : Type}

/-- HDEC's effect: the header of the delivery buffer (R125). -/
def hdecEffect (s : Channel.State Batch) : Channel.State Batch :=
  s.withRegister s.rx fun B =>
    match decodeHeader B with
    | none => s.raise .shortReadHeader
    | some h => { s with hdr := some h, st := .headerDecoded }

/-- HDEC (R125). -/
def execHdec (s : Channel.State Batch) : Channel.Outcome Batch :=
  .next (s.command .hdec hdecEffect)

/-- PVER's effect: slice the payload, then verify it; on a failing check `pin` stays written
(R131). -/
def pverEffect (c : Collaborators Batch) (s : Channel.State Batch) : Channel.State Batch :=
  s.withRegister s.rx fun B =>
    s.withRegister s.hdr fun h =>
      match memRead B hdrSize h.payloadLength.toNat with
      | none => s.raise .shortReadPayload
      | some P =>
        if verifyPayload c P h.payloadChecksum then
          { s with pin := some P, st := .payloadVerified }
        else Channel.State.raise { s with pin := some P } .integrityFailure

/-- PVER over any collaborators (R131). -/
def pverUnder (c : Collaborators Batch) (s : Channel.State Batch) : Channel.Outcome Batch :=
  .next (s.command .pver (pverEffect c))

/-- PVER (R131). -/
def execPver (s : State) : Host.Outcome State Fault Refusal :=
  pverUnder collaborators s

/-- PDEC's effect: the verified payload through the codec (R134). -/
def pdecEffect (c : Collaborators Batch) (s : Channel.State Batch) : Channel.State Batch :=
  s.withRegister s.pin fun P =>
    match c.pdecode P with
    | none => s.raise .codecFailure
    | some S => { s with sdec := some S, st := .payloadDecoded }

/-- PDEC over any collaborators (R134). -/
def pdecUnder (c : Collaborators Batch) (s : Channel.State Batch) : Channel.Outcome Batch :=
  .next (s.command .pdec (pdecEffect c))

/-- PDEC (R134). -/
def execPdec (s : State) : Host.Outcome State Fault Refusal :=
  pdecUnder collaborators s

/-- XFRM's effect: the whole sequence as the one element of a list (R136). -/
def xfrmEffect (s : Channel.State Batch) : Channel.State Batch :=
  s.withRegister s.sdec fun S => { s with tseq := some [S], st := .transformed }

/-- XFRM (R136). -/
def execXfrm (s : Channel.State Batch) : Channel.Outcome Batch :=
  .next (s.command .xfrm xfrmEffect)

/-- PENC's effect: the transformed sequence through the codec (R138). -/
def pencEffect (c : Collaborators Batch) (s : Channel.State Batch) : Channel.State Batch :=
  s.withRegister s.tseq fun T => { s with pout := some (c.pencode T), st := .payloadEncoded }

/-- PENC over any collaborators (R138). -/
def pencUnder (c : Collaborators Batch) (s : Channel.State Batch) : Channel.Outcome Batch :=
  .next (s.command .penc (pencEffect c))

/-- PENC (R138). -/
def execPenc (s : State) : Host.Outcome State Fault Refusal :=
  pencUnder collaborators s

/-- The header HFIN hands to the bootstrap: the inbound one with the outbound length and the digest
of the outbound payload (R140; spec/70_reset_and_hazards.md R206). The caller has checked that the
length fits its 32 bits. -/
def outboundHeader (c : Collaborators Batch) (h : Header) (Q : Bytes) : Header :=
  { h with
    payloadLength := BitVec.ofNat 32 (h.payloadLength.toNat + nestDelta)
    payloadChecksum := c.digest64 Q }

/-- HFIN's effect: the length check, then the two-pass emission (R140). -/
def hfinEffect (c : Collaborators Batch) (s : Channel.State Batch) : Channel.State Batch :=
  s.withRegister s.hdr fun h =>
    s.withRegister s.pout fun Q =>
      if lengthBound ≤ h.payloadLength.toNat + nestDelta then s.raise .lengthOverflow
      else
        let b := bootHeader c (outboundHeader c h Q)
        { s with
          basis := some b.basis, hbytes := some b.final, hdr := some b.header,
          st := .headerFinalized }

/-- HFIN over any collaborators (R140). -/
def hfinUnder (c : Collaborators Batch) (s : Channel.State Batch) : Channel.Outcome Batch :=
  .next (s.command .hfin (hfinEffect c))

/-- HFIN (R140). -/
def execHfin (s : State) : Host.Outcome State Fault Refusal :=
  hfinUnder collaborators s

/-- SEND's effect: one write of the whole frame (R144). -/
def sendEffect (s : Channel.State Batch) : Channel.State Batch :=
  s.withRegister s.hbytes fun H =>
    s.withRegister s.pout fun Q =>
      Channel.State.emit { s with st := .sent } (.tx (H.toList ++ Q))

/-- SEND (R144). -/
def execSend (s : Channel.State Batch) : Channel.Outcome Batch :=
  .next (s.command .send sendEffect)

end Sys2Proof.Machine
end

