-- ==== Sys2Proof/Machine/FrameAssembler.lean ====
section
/-! DEFINITION. The optional frame assembler: the reader state ASM and the step AFRM
(spec/42_orchestrator.md R160 to R163). -/

namespace Sys2Proof.Machine

open Sys2Proof.Config

variable {Batch : Type}

/-- `ASM(A)`: the reader state as a function of the buffered bytes (R161). -/
def readerState (A : Bytes) : AMode :=
  match decodeHeader A with
  | none => .wantHeader
  | some h =>
    if A.length < hdrSize + h.payloadLength.toNat then .wantPayload h.payloadLength
    else .frameReady

/-- The bytes of the first whole frame in a buffer, and the bytes after it; `none` when no whole
frame is there (R162). -/
def splitFrame (A : Bytes) : Option (Bytes × Bytes) :=
  match decodeHeader A with
  | none => none
  | some h =>
    match memRead A 0 (hdrSize + h.payloadLength.toNat) with
    | none => none
    | some F => some (F, A.drop (hdrSize + h.payloadLength.toNat))

/-- AFRM's effect: one frame to the delivery buffer, the rest kept (R162). A buffer that holds no
whole frame cannot be read so (log entry 9). -/
def afrmEffect (s : Channel.State Batch) : Channel.State Batch :=
  s.withRegister s.asm fun a =>
    s.withRegister (splitFrame a.abuf) fun p =>
      { s.clearDerived with
        rx := some p.1
        asm := some { amode := readerState p.2, abuf := p.2 }
        st := .received }

/-- AFRM: with the assembler absent its code is an illegal command (R162; spec/30_encoding.md
R68). -/
def execAfrm (s : Channel.State Batch) : Channel.Outcome Batch :=
  match s.assembler with
  | .absent => .next s.illegalCommand
  | .present => .next (s.command .afrm afrmEffect)

end Sys2Proof.Machine
end

