-- ==== Sys2Proof/Machine/HostEvents.lean ====
section
/-! DEFINITION. The host events DELIVER, CLOSE and RESET (spec/42_orchestrator.md R121, R150, R151,
R160). -/

namespace Sys2Proof.Machine

variable {Batch : Type}

/-- DELIVER's effect: without the assembler the event's bytes start an exchange (R121); with it
they join the buffer, and `rx` and `st` are not written (R160). -/
def deliverEffect (B : Bytes) (s : Channel.State Batch) : Channel.State Batch :=
  match s.asm with
  | none => { s.clearDerived with rx := some B, st := .received }
  | some a => { s with asm := some { amode := readerState (a.abuf ++ B), abuf := a.abuf ++ B } }

/-- DELIVER (R121, R160). -/
def execDeliver (B : Bytes) (s : Channel.State Batch) : Channel.Outcome Batch :=
  .next (s.command (.deliver B) (deliverEffect B))

/-- CLOSE's effect: both notifications, cleared registers, `err` kept (R151). -/
def closeEffect (s : Channel.State Batch) : Channel.State Batch :=
  let told := (s.emit .notifyDisconnect).emit .obsDisconnect
  { told.clearExchange.clearAssembler with st := .closed }

/-- CLOSE (R151). -/
def execClose (s : Channel.State Batch) : Channel.Outcome Batch :=
  .next (s.command .close closeEffect)

/-- RESET's effect: every register of spec/10_state.md R37 to its reset value, `out` kept and
`obs(connect)` emitted (R150). -/
def resetEffect (s : Channel.State Batch) : Channel.State Batch :=
  let cleared := s.clearExchange.clearAssembler
  Channel.State.emit { cleared with created := true, st := .idle, err := .none } .obsConnect

/-- RESET (R150). -/
def execReset (s : Channel.State Batch) : Channel.Outcome Batch :=
  .next (s.command .reset resetEffect)

end Sys2Proof.Machine
end

