-- ==== Sys2Proof/Machine/Dispatch.lean ====
section
/-! DEFINITION. One arm per command: its meaning. -/

namespace Sys2Proof.Machine

def exec (i : Instr) (s : State) : Host.Outcome State Fault Refusal :=
  match i with
  | .hdec => Sys2Proof.Machine.execHdec s
  | .pver => Sys2Proof.Machine.execPver s
  | .pdec => Sys2Proof.Machine.execPdec s
  | .xfrm => Sys2Proof.Machine.execXfrm s
  | .penc => Sys2Proof.Machine.execPenc s
  | .hfin => Sys2Proof.Machine.execHfin s
  | .send => Sys2Proof.Machine.execSend s
  | .afrm => Sys2Proof.Machine.execAfrm s
  | .deliver bytes => Sys2Proof.Machine.execDeliver bytes s
  | .close => Sys2Proof.Machine.execClose s
  | .reset => Sys2Proof.Machine.execReset s

end Sys2Proof.Machine
end

