-- ==== Sys2Proof/WellFormed.lean ====
section
/-! DEFINITION. Which commands have an encoding: DELIVER's operand length is a 4-byte field
(spec/30_encoding.md R67). -/

namespace Sys2Proof

/-- The command can be written in a command stream: every command but a DELIVER whose operand
is longer than its 32-bit length field can say (R67). -/
def Instr.wellFormed : Instr → Bool
  | .hdec => true
  | .pver => true
  | .pdec => true
  | .xfrm => true
  | .penc => true
  | .hfin => true
  | .send => true
  | .afrm => true
  | .deliver bytes => decide (bytes.length < 2 ^ 32)
  | .close => true
  | .reset => true

end Sys2Proof
end

