-- ==== Sys2Proof/Decode.lean ====
section
/-! DEFINITION. The command decoder, total on any bytes and rejecting by name, and the encoder
(spec/30_encoding.md R66, R67, R68). -/

namespace Sys2Proof

open Sys2Proof.Machine (leBytes rdLe memRead leValue)

/-- What the decoder reads at the head of a command stream. -/
inductive Decoded where
  /-- A command and the bytes after it. -/
  | command (i : Instr) (rest : Bytes)
  /-- A code that selects no command (R68), and the bytes after it. -/
  | illegalCode (code : Byte) (rest : Bytes)
  /-- The stream ends inside a DELIVER command (R67). -/
  | truncatedDeliver
  /-- No byte is left. -/
  | endOfStream
  deriving DecidableEq, Repr

/-- DELIVER's command code (R66). -/
def deliverCode : Byte := 0x10

/-- The one-byte commands of R66. AFRM stands here whatever ASSEMBLER is; that its code is illegal
when the assembler is absent is said by its meaning (log entry 12). -/
def commandTable : List (Byte × Instr) :=
  [(0x01, .hdec), (0x02, .pver), (0x03, .pdec), (0x04, .xfrm), (0x05, .penc), (0x06, .hfin),
   (0x07, .send), (0x08, .afrm), (0x11, .close), (0x12, .reset)]

/-- DELIVER after its code byte: a 4-byte little-endian length, then that many bytes (R67). -/
def decodeDeliver (bs : Bytes) : Decoded :=
  match memRead bs 0 4 with
  | none => .truncatedDeliver
  | some lenBytes =>
    match memRead bs 4 (leValue lenBytes) with
    | none => .truncatedDeliver
    | some operand => .command (.deliver operand) (bs.drop (4 + leValue lenBytes))

/-- The first command of a stream: selected by an exact match of byte 0 (R66). -/
def decode : Bytes → Decoded
  | [] => .endOfStream
  | b :: bs =>
    if b = deliverCode then decodeDeliver bs
    else
      match commandTable.lookup b with
      | some i => .command i bs
      | none => .illegalCode b bs

/-- The command code in byte 0 (R66). -/
def Instr.code : Instr → Byte
  | .hdec => 0x01
  | .pver => 0x02
  | .pdec => 0x03
  | .xfrm => 0x04
  | .penc => 0x05
  | .hfin => 0x06
  | .send => 0x07
  | .afrm => 0x08
  | .deliver _ => 0x10
  | .close => 0x11
  | .reset => 0x12

/-- The length in bytes of a command in a stream (R67). -/
def Instr.size : Instr → Nat
  | .hdec => 1
  | .pver => 1
  | .pdec => 1
  | .xfrm => 1
  | .penc => 1
  | .hfin => 1
  | .send => 1
  | .afrm => 1
  | .deliver bytes => 5 + bytes.length
  | .close => 1
  | .reset => 1

/-- The bytes of a command (R66, R67). -/
def encode : Instr → Bytes
  | .hdec => [0x01]
  | .pver => [0x02]
  | .pdec => [0x03]
  | .xfrm => [0x04]
  | .penc => [0x05]
  | .hfin => [0x06]
  | .send => [0x07]
  | .afrm => [0x08]
  | .deliver bytes => deliverCode :: (leBytes 4 bytes.length ++ bytes)
  | .close => [0x11]
  | .reset => [0x12]

/-- The stream of several commands, each right after the one before it (R67). -/
def encodeAll (is : List Instr) : Bytes :=
  is.flatMap encode

/-- The stream bytes of one instruction given as the opcode table numbers its bits: byte `k` is
bits `8k+7 .. 8k` of `w`. A DELIVER whose given bits end early goes on with zero bytes, to the end
of the operand its length field says. -/
def tableBytes (nbits w : Nat) : Bytes :=
  let given := leBytes (nbits / 8) w
  if given.head? = some deliverCode then
    let head := given ++ List.replicate (5 - given.length) 0
    let size := 5 + rdLe head 1 4
    (head ++ List.replicate (size - head.length) 0).take size
  else given.take 1

/-- The instruction the decoder reads from a word of spec/opcode_table.json. -/
def decodeTableWord (nbits w : Nat) : Option Instr :=
  match decode (tableBytes nbits w) with
  | .command i _ => some i
  | .illegalCode _ _ => none
  | .truncatedDeliver => none
  | .endOfStream => none

end Sys2Proof
end

