-- ==== Sys2Proof/Machine/Fetch.lean ====
section
/-! DEFINITION. What a channel does next: the command stream taken as written
(spec/42_orchestrator.md R122), else the block's own enabled step, else a waiting host event
(R152). -/

namespace Sys2Proof.Machine

variable {Batch : Type}

/-- The command a host event is taken as (spec/30_encoding.md R66). -/
def HostEvent.instr : HostEvent → Instr
  | .reset => .reset
  | .deliver bytes => .deliver bytes
  | .close => .close

/-- The steps the block agent takes by itself (spec/10_state.md R20). -/
def blockSteps : List Instr :=
  Instr.exchangeSteps ++ [.afrm]

/-- The block step that is enabled, if one is; at most one is (spec/42_orchestrator.md R120). -/
def Channel.State.ownStep (s : Channel.State Batch) : Option Instr :=
  blockSteps.find? s.enabled

/-- The first event of a queue that may be taken, and the queue without it. -/
def takeFirst (may : HostEvent → Bool) : List HostEvent → Option (HostEvent × List HostEvent)
  | [] => none
  | e :: q =>
    if may e then some (e, q)
    else
      match takeFirst may q with
      | none => none
      | some p => some (p.1, e :: p.2)

/-- What is done next: a command in a state, or only a change of state. -/
inductive Turn (Batch : Type) where
  | take (i : Instr) (s : Channel.State Batch)
  | become (s : Channel.State Batch)
  deriving DecidableEq, Repr

/-- With no command in the stream: the block's own step while the channel is busy; a host event
that is enabled when it is not, the oldest first, the others waiting on (R152; spec/60_exceptions.md
R176; log entry 5); with neither, the channel holds its state and waits (R184; log entry 6). -/
def Channel.State.ownTurn (s : Channel.State Batch) : Turn Batch :=
  match s.ownStep with
  | some i => .take i s
  | none =>
    match takeFirst (fun e => s.enabled e.instr) s.hostq with
    | some p => .take p.1.instr { s with hostq := p.2 }
    | none => .become s

/-- The next command of the stream, taken as written (R122). An illegal code is one byte; a stream
that ends inside a DELIVER is used up (spec/30_encoding.md R67, R68; log entry 13). -/
def Channel.State.turn (s : Channel.State Batch) : Turn Batch :=
  match decode s.cmds with
  | .command i rest => .take i { s with cmds := rest }
  | .illegalCode _ rest => .become (Channel.State.illegalCommand { s with cmds := rest })
  | .truncatedDeliver => .become (Channel.State.illegalCommand { s with cmds := [] })
  | .endOfStream => s.ownTurn

/-- The host writes commands behind those already in the stream (log entry 4). -/
def Channel.State.load (s : Channel.State Batch) (bytes : Bytes) : Channel.State Batch :=
  { s with cmds := s.cmds ++ bytes }

/-- The host raises an event at an input port; it waits behind the earlier ones
(spec/10_state.md R33; log entry 5). -/
def Channel.State.post (s : Channel.State Batch) (e : HostEvent) : Channel.State Batch :=
  { s with hostq := s.hostq ++ [e] }

end Sys2Proof.Machine
end

