-- ==== Sys2Proof/Machine/Step.lean ====
section
/-! DEFINITION. One step of a channel, and the placing of an instruction where the step reads its
next command. -/

namespace Sys2Proof.Machine

/-- One step: the next command of the stream, the block's own step, a host event, or waiting, as
`Channel.State.turn` says. -/
def step (s : State) : Host.Outcome State Fault Refusal :=
  match s.turn with
  | .take i t => exec i t
  | .become t => .next t

/-- The state with an instruction, given as the opcode table numbers its bits, at the head of the
command stream, where `step` reads its next command (log entry 4). -/
def State.withFetchWord (s : State) (nbits w : Nat) : State :=
  { s with cmds := tableBytes nbits w ++ s.cmds }

end Sys2Proof.Machine
end

