-- ==== Sys2Proof/Machine/CommandText.lean ====
section
/-! DEFINITION. The text form of commands (spec/30_encoding.md R69): one command a line, the
mnemonic, then any operand; a comment begins with a semicolon. -/

namespace Sys2Proof.Machine

/-- The braces an operand may stand in (R69). -/
def openBrace : Char := Char.ofNat 0x7B
def closeBrace : Char := Char.ofNat 0x7D

/-- A blank between words (log entry 19). -/
def isBlank (ch : Char) : Bool :=
  decide (ch = ' ') || decide (ch = '\t')

/-- The words of a line, a brace being a word of its own; `word` is the word read so far, last
character first. -/
def splitWords (word : List Char) : List Char → List (List Char)
  | [] => if word.isEmpty then [] else [word.reverse]
  | ch :: chs =>
    if isBlank ch then
      if word.isEmpty then splitWords [] chs else word.reverse :: splitWords [] chs
    else if ch = openBrace ∨ ch = closeBrace then
      if word.isEmpty then [ch] :: splitWords [] chs
      else word.reverse :: [ch] :: splitWords [] chs
    else splitWords (ch :: word) chs

/-- The value of a hexadecimal digit (R7). -/
def hexDigit (ch : Char) : Option Nat :=
  if 48 ≤ ch.toNat ∧ ch.toNat ≤ 57 then some (ch.toNat - 48)
  else if 65 ≤ ch.toNat ∧ ch.toNat ≤ 70 then some (ch.toNat - 55)
  else if 97 ≤ ch.toNat ∧ ch.toNat ≤ 102 then some (ch.toNat - 87)
  else none

/-- One hexadecimal pair (R69). -/
def hexPair : List Char → Option Byte
  | [hi, lo] =>
    match hexDigit hi, hexDigit lo with
    | some a, some b => some (BitVec.ofNat 8 (16 * a + b))
    | _, _ => none
  | _ => none

/-- An operand without the braces it may stand in (R69). -/
def withoutBraces : List (List Char) → Option (List (List Char))
  | [] => some []
  | w :: ws =>
    if w = [openBrace] then
      if ws.getLast? = some [closeBrace] then some ws.dropLast else none
    else some (w :: ws)

/-- DELIVER's operand: hexadecimal pairs in wire order (R69). -/
def operandBytes (ws : List (List Char)) : Option Bytes :=
  match withoutBraces ws with
  | none => none
  | some pairs => pairs.mapM hexPair

/-- The mnemonics that take no operand (R66). -/
def mnemonicTable : List (List Char × Instr) :=
  [("HDEC".toList, .hdec), ("PVER".toList, .pver), ("PDEC".toList, .pdec),
   ("XFRM".toList, .xfrm), ("PENC".toList, .penc), ("HFIN".toList, .hfin),
   ("SEND".toList, .send), ("AFRM".toList, .afrm), ("CLOSE".toList, .close),
   ("RESET".toList, .reset)]

/-- One line as the commands it stands for: none for a blank line, one for a command, eight for the
pseudo-instruction XCHG; `none` for a line that is no command (R69). -/
def assembleLine (line : List Char) : Option (List Instr) :=
  match splitWords [] (line.takeWhile fun ch => decide (ch ≠ ';')) with
  | [] => some []
  | word :: operand =>
    if word = "DELIVER".toList then (operandBytes operand).map fun B => [.deliver B]
    else if word = "XCHG".toList then (operandBytes operand).map Instr.xchg
    else
      match operand with
      | [] => (mnemonicTable.lookup word).map fun i => [i]
      | _ :: _ => none

/-- A program text, line by line (R69). -/
def assemble : List (List Char) → Option (List Instr)
  | [] => some []
  | line :: lines =>
    match assembleLine line, assemble lines with
    | some is, some more => some (is ++ more)
    | _, _ => none

end Sys2Proof.Machine
end

