-- ==== Sys2Proof/Machine/System.lean ====
section
/-! DEFINITION. Any number of channels, one per connection (spec/60_exceptions.md R182). They share
no mutable state and nothing orders their steps (spec/20_memory.md R50), so a run takes an
interleaving as an argument and a claim holds for every one. -/

namespace Sys2Proof.Machine

/-- Channel `k` of a system takes one step; the other channels are not touched. A number that names
no channel changes nothing. -/
def stepChannel (channels : List State) (k : Nat) : Host.Outcome (List State) Fault Refusal :=
  match channels[k]? with
  | none => .next channels
  | some s =>
    match step s with
    | .next t => .next (channels.set k t)
    | .fault r => .fault r
    | .refused r => .refused r

/-- The channels step in the order of an interleaving. -/
def runChannels (channels : List State) : List Nat → Host.Outcome (List State) Fault Refusal
  | [] => .next channels
  | k :: ks =>
    match stepChannel channels k with
    | .next cs => runChannels cs ks
    | .fault r => .fault r
    | .refused r => .refused r

end Sys2Proof.Machine
end

