-- ==== Sys2Proof/Machine/Under.lean ====
section
/-! DEFINITION. The same machine over any type of record batch and any collaborators, the parameters
spec/00_scope.md R5 and R6 have a model take as arguments. `exec` and `step` are these at
`Config.Batch` and `Config.collaborators`. -/

namespace Sys2Proof.Machine

variable {Batch : Type}

/-- Each command over any collaborators (R5); only PVER, PDEC, PENC and HFIN call one. -/
def execUnder (c : Collaborators Batch) (i : Instr) (s : Channel.State Batch) :
    Channel.Outcome Batch :=
  match i with
  | .hdec => execHdec s
  | .pver => pverUnder c s
  | .pdec => pdecUnder c s
  | .xfrm => execXfrm s
  | .penc => pencUnder c s
  | .hfin => hfinUnder c s
  | .send => execSend s
  | .afrm => execAfrm s
  | .deliver bytes => execDeliver bytes s
  | .close => execClose s
  | .reset => execReset s

/-- One step over any collaborators. -/
def stepUnder (c : Collaborators Batch) (s : Channel.State Batch) : Channel.Outcome Batch :=
  match s.turn with
  | .take i t => execUnder c i t
  | .become t => .next t

/-- Commands one after another, each taken as written (spec/42_orchestrator.md R122). -/
def runCommands (c : Collaborators Batch) : List Instr → Channel.State Batch → Channel.Outcome Batch
  | [], s => .next s
  | i :: is, s =>
    match execUnder c i s with
    | .next t => runCommands c is t
    | .fault r => .fault r
    | .refused r => .refused r

/-- A number of steps over any collaborators, stopping at the first that is no next state. -/
def runSteps (c : Collaborators Batch) : Nat → Channel.State Batch → Channel.Outcome Batch
  | 0, s => .next s
  | k + 1, s =>
    match stepUnder c s with
    | .next t => runSteps c k t
    | .fault r => .fault r
    | .refused r => .refused r

end Sys2Proof.Machine
end

