-- ==== Sys2Proof/Safety.lean ====
section
/-! DEFINITION. The terms claims use: the exchange as a function, well-formed frames, the end of a
run, the observation of a run, and the invariant of a channel. -/

namespace Sys2Proof.Safety

open Sys2Proof.Machine

variable {Batch : Type}

/-- What one exchange comes to (spec/42_orchestrator.md R146). -/
inductive ExchangeResult where
  | fault (code : FaultCode)
  | frame (F : Bytes)
  deriving DecidableEq, Repr

/-- `EXCHANGE(B)`, written from R146 alone: no state and no step of the machine. -/
def exchange (c : Collaborators Batch) (B : Bytes) : ExchangeResult :=
  match decodeHeader B with
  | none => .fault .shortReadHeader
  | some h =>
    if B.length < 26 + h.payloadLength.toNat then .fault .shortReadPayload
    else if c.digest64 ((B.drop 26).take h.payloadLength.toNat) ≠ h.payloadChecksum then
      .fault .integrityFailure
    else
      match c.pdecode ((B.drop 26).take h.payloadLength.toNat) with
      | none => .fault .codecFailure
      | some S =>
        if 2 ^ 32 ≤ h.payloadLength.toNat + 4 then .fault .lengthOverflow
        else
          .frame
            ((bootHeader c
                { h with
                  payloadLength := BitVec.ofNat 32 (h.payloadLength.toNat + 4)
                  payloadChecksum := c.digest64 (c.pencode [S]) }).final.toList ++
              c.pencode [S])

/-- A frame `H ++ P` is well formed (spec/41_integrity.md R111). -/
def WellFormedFrame (c : Collaborators Batch) (F : Bytes) : Prop :=
  ∃ h, decodeHeader F = some h ∧
    h.payloadChecksum = c.digest64 (F.drop 26) ∧
    (F.drop 26).length = h.payloadLength.toNat ∧
    h.headerChecksum = headerCheck c h

/-- The second condition of R111 alone: the frame's header carries its own check. -/
def CertifiedHeader (c : Collaborators Batch) (F : Bytes) : Prop :=
  ∃ h, decodeHeader F = some h ∧ h.headerChecksum = headerCheck c h

/-- `Busy` of spec/42_orchestrator.md R152, written from the rule: inside an exchange, or, with the
assembler present, a complete frame waiting in Idle or Sent. -/
def ChannelBusy (s : Channel.State Batch) : Prop :=
  s.st = .received ∨ s.st = .headerDecoded ∨ s.st = .payloadVerified ∨ s.st = .payloadDecoded ∨
    s.st = .transformed ∨ s.st = .payloadEncoded ∨ s.st = .headerFinalized ∨
    (s.st = .idle ∨ s.st = .sent) ∧ ∃ a, s.asm = some a ∧ a.amode = .frameReady

/-- The preconditions of spec/30_encoding.md R66, row by row, with R152's rule that no host event is
enabled while the channel is busy, for a channel that exists. -/
def Precondition (s : Channel.State Batch) : Instr → Prop
  | .hdec => s.st = .received
  | .pver => s.st = .headerDecoded
  | .pdec => s.st = .payloadVerified
  | .xfrm => s.st = .payloadDecoded
  | .penc => s.st = .transformed
  | .hfin => s.st = .payloadEncoded
  | .send => s.st = .headerFinalized
  | .afrm => (s.st = .idle ∨ s.st = .sent) ∧ ∃ a, s.asm = some a ∧ a.amode = .frameReady
  | .deliver _ => (s.st = .idle ∨ s.st = .sent) ∧ ¬ ChannelBusy s
  | .close => (s.st = .idle ∨ s.st = .sent ∨ s.st = .failed) ∧ ¬ ChannelBusy s
  | .reset =>
    (s.st = .idle ∨ s.st = .sent ∨ s.st = .failed ∨ s.st = .closed) ∧ ¬ ChannelBusy s

/-- The observation of a run (spec/10_state.md R34). -/
def observation (s : Channel.State Batch) : List Event × St × FaultCode :=
  (s.out, s.st, s.err)

/-- A run has ended: the channel is not busy and the host takes no further event
(spec/42_orchestrator.md R153). -/
def RunEnded (s : Channel.State Batch) : Prop :=
  s.busy = false ∧ s.cmds = [] ∧ ∀ e ∈ s.hostq, s.enabled e.instr = false

/-- The final state *clean* of R153. -/
def Clean (s : Channel.State Batch) : Prop :=
  s.err = .none ∧ (s.st = .idle ∨ s.st = .sent ∨ s.st = .closed) ∧
    ∀ a, s.asm = some a → a.abuf = []

/-- The final state *faulted* of R153. -/
def Faulted (s : Channel.State Batch) : Prop :=
  s.st = .failed

/-- The final state *pending* of R153: no fault, and an incomplete frame in the assembler. -/
def Pending (s : Channel.State Batch) : Prop :=
  s.err = .none ∧ ∃ a, s.asm = some a ∧ a.abuf ≠ [] ∧ readerState a.abuf ≠ .frameReady

/-- The eight exchange registers (spec/10_state.md R26 to R31), `none` unless said otherwise. -/
structure Registers (Batch : Type) where
  rx : Option Bytes := none
  hdr : Option Header := none
  pin : Option Bytes := none
  sdec : Option (List Batch) := none
  tseq : Option (List (List Batch)) := none
  pout : Option Bytes := none
  basis : Option Bytes26 := none
  hbytes : Option Bytes26 := none
  deriving DecidableEq, Repr

/-- The exchange registers of a state. -/
def registers (s : Channel.State Batch) : Registers Batch :=
  { rx := s.rx, hdr := s.hdr, pin := s.pin, sdec := s.sdec, tseq := s.tseq, pout := s.pout,
    basis := s.basis, hbytes := s.hbytes }

/-- With the assembler present, a delivery buffer is exactly one whole frame
(spec/42_orchestrator.md R163). -/
def Arrived (s : Channel.State Batch) (B : Bytes) : Prop :=
  s.asm.isSome = true → splitFrame B = some (B, [])

/-- `h` and `P` are the header and the payload of the delivery `B`, and the payload's digest is the
claimed one (spec/41_integrity.md R105). -/
def Verified (c : Collaborators Batch) (B : Bytes) (h : Header) (P : Bytes) : Prop :=
  decodeHeader B = some h ∧ memRead B 26 h.payloadLength.toNat = some P ∧
    c.digest64 P = h.payloadChecksum

/-- What the exchange registers hold in each value of `st`: everything the steps before it have
computed from the delivery, and nothing else. -/
def StageHolds (c : Collaborators Batch) (s : Channel.State Batch) : Prop :=
  match s.st with
  | .idle => registers s = {}
  | .received => ∃ B, Arrived s B ∧ registers s = { rx := some B }
  | .headerDecoded =>
    ∃ B h, Arrived s B ∧ decodeHeader B = some h ∧ registers s = { rx := some B, hdr := some h }
  | .payloadVerified =>
    ∃ B h P, Verified c B h P ∧ registers s = { rx := some B, hdr := some h, pin := some P }
  | .payloadDecoded =>
    ∃ B h P S, Verified c B h P ∧ c.pdecode P = some S ∧
      registers s = { rx := some B, hdr := some h, pin := some P, sdec := some S }
  | .transformed =>
    ∃ B h P S, Verified c B h P ∧ c.pdecode P = some S ∧
      registers s =
        { rx := some B, hdr := some h, pin := some P, sdec := some S, tseq := some [S] }
  | .payloadEncoded =>
    ∃ B h P S, Verified c B h P ∧ c.pdecode P = some S ∧
      registers s =
        { rx := some B, hdr := some h, pin := some P, sdec := some S, tseq := some [S],
          pout := some (c.pencode [S]) }
  | .headerFinalized => Finalized
  | .sent => Finalized
  | .failed => True
  | .closed => registers s = {}
where
  /-- HFIN has run on a delivery that passed every check. -/
  Finalized : Prop :=
    ∃ B h P S, Verified c B h P ∧ c.pdecode P = some S ∧ h.payloadLength.toNat + 4 < 2 ^ 32 ∧
      registers s =
        { rx := some B, pin := some P, sdec := some S, tseq := some [S],
          pout := some (c.pencode [S]),
          hdr := some (bootHeader c (outboundHeader c h (c.pencode [S]))).header,
          basis := some (bootHeader c (outboundHeader c h (c.pencode [S]))).basis,
          hbytes := some (bootHeader c (outboundHeader c h (c.pencode [S]))).final }

/-- A fault is latched exactly in `Failed`, and in `Closed` when a failed channel was closed
(spec/10_state.md R23; spec/60_exceptions.md R173). -/
def FaultLatched (s : Channel.State Batch) : Prop :=
  (s.st = .failed → s.err ≠ .none) ∧ (s.err ≠ .none → s.st = .failed ∨ s.st = .closed)

/-- `amode` is the reader state of the buffered bytes (spec/42_orchestrator.md R160, R161). -/
def ReaderCoherent (s : Channel.State Batch) : Prop :=
  ∀ a, s.asm = some a → a.amode = readerState a.abuf

/-- A channel that does not exist yet has done nothing (spec/70_reset_and_hazards.md R200). -/
def BlankBeforeReset (s : Channel.State Batch) : Prop :=
  s.created = false →
    s.st = .idle ∧ s.err = .none ∧ s.out = [] ∧ ∀ a, s.asm = some a → a = Assembler.reset

/-- A closed channel has discarded what the assembler held (spec/42_orchestrator.md R151). -/
def ClosedIsEmpty (s : Channel.State Batch) : Prop :=
  s.st = .closed → ∀ a, s.asm = some a → a = Assembler.reset

/-- The invariant of a channel. -/
def Inv (c : Collaborators Batch) (s : Channel.State Batch) : Prop :=
  StageHolds c s ∧ FaultLatched s ∧ ReaderCoherent s ∧ BlankBeforeReset s ∧ ClosedIsEmpty s

/-- Every frame written so far carries its own header check (spec/41_integrity.md R111). -/
def SentCertified (c : Collaborators Batch) (s : Channel.State Batch) : Prop :=
  ∀ F, Event.tx F ∈ s.out → CertifiedHeader c F

end Sys2Proof.Safety
end

