-- ==== Sys2Proof/Certificates/Slice0/Obligations.lean ====
section
/-! DEFINITION. The statements for the provers, each from the rules of spec/ its docstring cites. -/

open Sys2Proof Sys2Proof.Machine Sys2Proof.Safety

/-! ## Reset -/

/-- R37, R200, R201: the first RESET of a channel, with either ASSEMBLER choice, gives the reset
values; with the assembler absent it gives `State.reset`. -/
def Obligations.FirstResetGivesResetState : Prop :=
  ∀ asm : Option Assembler,
    Sys2Proof.Machine.exec .reset (Channel.State.uncreated asm) =
      .next { State.reset with asm := asm.map fun _ => ⟨.wantHeader, []⟩ }

/-- R150, R152, R201, R202: RESET of a channel that is not busy, in Idle, Sent, Failed or Closed or
not yet created, sets every register to its reset value; of the spec's registers only `out`
survives, with `obs(connect)` added. Two clauses are the model's: that RESET is not enabled while a
frame is ready in the assembler is its reading of R152 beside R150 (log entry 8), and that the
command stream and the waiting host events, its own fields, survive RESET is its choice (log entries
4, 5 and 22). -/
def Obligations.ResetStartsChannel : Prop :=
  encode .reset = [0x12] ∧
  ∀ s : State,
    (s.created = false ∨
      (s.st = .idle ∨ s.st = .sent ∨ s.st = .failed ∨ s.st = .closed) ∧ ¬ ChannelBusy s) →
    Sys2Proof.Machine.exec .reset s =
      .next
        { created := true, st := .idle, err := .none,
          rx := none, hdr := none, pin := none, sdec := none, tseq := none, pout := none,
          basis := none, hbytes := none,
          out := s.out ++ [.obsConnect],
          asm := s.asm.map fun _ => ⟨.wantHeader, []⟩,
          cmds := s.cmds, hostq := s.hostq }

/-! ## The steps of an exchange: where each completes, and its whole next state -/

/-- R80, R81, R125, R172: HDEC on a delivery of at least 26 bytes writes the seven fields at their
offsets and moves to HeaderDecoded; on fewer bytes it faults with SHORT_READ_HEADER and writes no
header. Nothing else changes. -/
def Obligations.HdecDecodesHeader : Prop :=
  encode .hdec = [0x01] ∧
  ∀ (s : State) (B : Bytes),
    s.created = true → s.st = .received → s.rx = some B →
    (26 ≤ B.length →
      Sys2Proof.Machine.exec .hdec s =
        .next
          { s with
            hdr := some
              { version := BitVec.ofNat 8 (rdLe B 0 1)
                headerChecksum := BitVec.ofNat 32 (rdLe B 1 4)
                compression := BitVec.ofNat 8 (rdLe B 5 1)
                payloadLength := BitVec.ofNat 32 (rdLe B 6 4)
                metaWord := BitVec.ofNat 32 (rdLe B 10 4)
                correlationId := BitVec.ofNat 32 (rdLe B 14 4)
                payloadChecksum := BitVec.ofNat 64 (rdLe B 18 8) }
            st := .headerDecoded }) ∧
    (B.length < 26 →
      Sys2Proof.Machine.exec .hdec s =
        .next { s with err := .shortReadHeader, st := .failed, out := s.out ++ [.fault 0x01] })

/-- R103, R131, R172: PVER, in this order. A delivery too short for its payload faults with
SHORT_READ_PAYLOAD and leaves `pin` unwritten; a payload whose digest is not the claimed one faults
with INTEGRITY_FAILURE and stays in `pin`; else the slice is written and PVER moves to
PayloadVerified. Bytes beyond the payload are ignored, and nothing else changes. -/
def Obligations.PverVerifiesPayload : Prop :=
  encode .pver = [0x02] ∧
  ∀ (s : State) (B : Bytes) (h : Header),
    s.created = true → s.st = .headerDecoded → s.rx = some B → s.hdr = some h →
    (B.length < 26 + h.payloadLength.toNat →
      Sys2Proof.Machine.exec .pver s =
        .next { s with err := .shortReadPayload, st := .failed, out := s.out ++ [.fault 0x02] }) ∧
    (26 + h.payloadLength.toNat ≤ B.length →
      Config.digest64 ((B.drop 26).take h.payloadLength.toNat) ≠ h.payloadChecksum →
      Sys2Proof.Machine.exec .pver s =
        .next
          { s with
            pin := some ((B.drop 26).take h.payloadLength.toNat)
            err := .integrityFailure, st := .failed, out := s.out ++ [.fault 0x03] }) ∧
    (26 + h.payloadLength.toNat ≤ B.length →
      Config.digest64 ((B.drop 26).take h.payloadLength.toNat) = h.payloadChecksum →
      Sys2Proof.Machine.exec .pver s =
        .next
          { s with
            pin := some ((B.drop 26).take h.payloadLength.toNat)
            st := .payloadVerified })

/-- R134: PDEC hands the verified payload to the machine's own codec, and goes on as the codec
answers: a decoded sequence in `sdec`, or CODEC_FAILURE. Nothing else changes. -/
def Obligations.PdecFollowsCodec : Prop :=
  encode .pdec = [0x03] ∧
  ∀ (s : State) (P : Bytes),
    s.created = true → s.st = .payloadVerified → s.pin = some P →
    Sys2Proof.Machine.exec .pdec s =
      .next
        (match Config.pdecode P with
        | some S => { s with sdec := some S, st := .payloadDecoded }
        | none =>
          { s with err := .codecFailure, st := .failed, out := s.out ++ [.fault 0x04] })

/-- R134 over every type of record batch and every codec: PDEC on a payload the codec
accepts writes the decoded sequence and moves to PayloadDecoded; on one it rejects it faults with
CODEC_FAILURE. -/
def Obligations.PdecUnderEveryCodec : Prop :=
  ∀ (Batch : Type) (c : Collaborators Batch) (s : Channel.State Batch) (P : Bytes),
    s.created = true → s.st = .payloadVerified → s.pin = some P →
    (∀ S, c.pdecode P = some S →
      execUnder c .pdec s = .next { s with sdec := some S, st := .payloadDecoded }) ∧
    (c.pdecode P = none →
      execUnder c .pdec s =
        .next { s with err := .codecFailure, st := .failed, out := s.out ++ [.fault 0x04] })

/-- R136: XFRM writes the one-element list whose element is the whole sequence; nothing else
changes. Said of the machine, and over every type of record batch (R5). -/
def Obligations.XfrmNestsSequence : Prop :=
  encode .xfrm = [0x04] ∧
  (∀ (s : State) (S : List Config.Batch),
    s.created = true → s.st = .payloadDecoded → s.sdec = some S →
    Sys2Proof.Machine.exec .xfrm s = .next { s with tseq := some [S], st := .transformed }) ∧
  ∀ (Batch : Type) (c : Collaborators Batch) (s : Channel.State Batch) (S : List Batch),
    s.created = true → s.st = .payloadDecoded → s.sdec = some S →
    execUnder c .xfrm s = .next { s with tseq := some [S], st := .transformed }

/-- R138: PENC writes the codec's encoding of the transformed sequence; nothing else changes.
Said of the machine, and over every type of record batch and every codec (R5). -/
def Obligations.PencEncodesSequence : Prop :=
  encode .penc = [0x05] ∧
  (∀ (s : State) (T : List (List Config.Batch)),
    s.created = true → s.st = .transformed → s.tseq = some T →
    Sys2Proof.Machine.exec .penc s =
      .next { s with pout := some (Config.pencode T), st := .payloadEncoded }) ∧
  ∀ (Batch : Type) (c : Collaborators Batch) (s : Channel.State Batch) (T : List (List Batch)),
    s.created = true → s.st = .transformed → s.tseq = some T →
    execUnder c .penc s = .next { s with pout := some (c.pencode T), st := .payloadEncoded }

/-- R140, R172, R205: HFIN sets the length to the inbound one plus 4 and the payload checksum to
the digest of the outbound payload, encodes with the header checksum zero, digests those bytes, and
encodes again with the digest in place; the other header fields and registers are unchanged. When
the length plus 4 does not fit 32 bits it faults with LENGTH_OVERFLOW and writes no header. -/
def Obligations.HfinFinalizesHeader : Prop :=
  encode .hfin = [0x06] ∧
  ∀ (s : State) (h : Header) (Q : Bytes),
    s.created = true → s.st = .payloadEncoded → s.hdr = some h → s.pout = some Q →
    (2 ^ 32 ≤ h.payloadLength.toNat + 4 →
      Sys2Proof.Machine.exec .hfin s =
        .next { s with err := .lengthOverflow, st := .failed, out := s.out ++ [.fault 0x05] }) ∧
    (h.payloadLength.toNat + 4 < 2 ^ 32 →
      let pass1 : Header :=
        { h with
          payloadLength := BitVec.ofNat 32 (h.payloadLength.toNat + 4)
          payloadChecksum := Config.digest64 Q
          headerChecksum := 0 }
      let pass2 : Header :=
        { pass1 with headerChecksum := Config.digest32 (encodeHeader pass1).toList }
      Sys2Proof.Machine.exec .hfin s =
        .next
          { s with
            hdr := some pass2
            basis := some (encodeHeader pass1)
            hbytes := some (encodeHeader pass2)
            st := .headerFinalized })

/-- R144: SEND emits the header bytes and the outbound payload as one event and moves to Sent; every
register keeps its value. -/
def Obligations.SendEmitsWholeFrame : Prop :=
  encode .send = [0x07] ∧
  ∀ (s : State) (H : Bytes26) (Q : Bytes),
    s.created = true → s.st = .headerFinalized → s.hbytes = some H → s.pout = some Q →
    Sys2Proof.Machine.exec .send s =
      .next { s with st := .sent, out := s.out ++ [.tx (H.toList ++ Q)] }

/-- R32: a block step whose state holds but whose operand register holds `none` faults with
ORDER_VIOLATION and supplies no value. -/
def Obligations.UnwrittenRegisterFaults : Prop :=
  ∀ s : State, s.created = true →
    ((s.st = .received ∧ s.rx = none →
        Sys2Proof.Machine.exec .hdec s =
          .next { s with err := .orderViolation, st := .failed, out := s.out ++ [.fault 0x06] }) ∧
      (s.st = .headerDecoded ∧ (s.rx = none ∨ s.hdr = none) →
        Sys2Proof.Machine.exec .pver s =
          .next { s with err := .orderViolation, st := .failed, out := s.out ++ [.fault 0x06] }) ∧
      (s.st = .payloadVerified ∧ s.pin = none →
        Sys2Proof.Machine.exec .pdec s =
          .next { s with err := .orderViolation, st := .failed, out := s.out ++ [.fault 0x06] }) ∧
      (s.st = .payloadDecoded ∧ s.sdec = none →
        Sys2Proof.Machine.exec .xfrm s =
          .next { s with err := .orderViolation, st := .failed, out := s.out ++ [.fault 0x06] }) ∧
      (s.st = .transformed ∧ s.tseq = none →
        Sys2Proof.Machine.exec .penc s =
          .next { s with err := .orderViolation, st := .failed, out := s.out ++ [.fault 0x06] }) ∧
      (s.st = .payloadEncoded ∧ (s.hdr = none ∨ s.pout = none) →
        Sys2Proof.Machine.exec .hfin s =
          .next { s with err := .orderViolation, st := .failed, out := s.out ++ [.fault 0x06] }) ∧
      (s.st = .headerFinalized ∧ (s.hbytes = none ∨ s.pout = none) →
        Sys2Proof.Machine.exec .send s =
          .next { s with err := .orderViolation, st := .failed, out := s.out ++ [.fault 0x06] }))

/-! ## Host events and the assembler -/

/-- R121: without the assembler, DELIVER in Idle or Sent writes the event's bytes, clears the other
exchange registers and moves to Received; nothing else changes. -/
def Obligations.DeliverStartsExchange : Prop :=
  (∀ B : Bytes, encode (.deliver B) = 0x10 :: (leBytes 4 B.length ++ B)) ∧
  ∀ (s : State) (B : Bytes),
    s.created = true → (s.st = .idle ∨ s.st = .sent) → s.asm = none →
    Sys2Proof.Machine.exec (.deliver B) s =
      .next
        { s with
          rx := some B, hdr := none, pin := none, sdec := none, tseq := none, pout := none,
          basis := none, hbytes := none, st := .received }

/-- R160: with the assembler and no frame ready, DELIVER appends to the buffer and sets the reader
state of the new buffer; `rx`, `st` and every other register are unchanged. A delivery of no bytes
changes nothing where the reader state is that of the buffer, which the invariant says. -/
def Obligations.DeliverFeedsAssembler : Prop :=
  ∀ (s : State) (a : Assembler) (B : Bytes),
    s.created = true → (s.st = .idle ∨ s.st = .sent) → s.asm = some a → a.amode ≠ .frameReady →
    Sys2Proof.Machine.exec (.deliver B) s =
      .next { s with asm := some ⟨readerState (a.abuf ++ B), a.abuf ++ B⟩ } ∧
    (a.amode = readerState a.abuf → Sys2Proof.Machine.exec (.deliver []) s = .next s)

/-- R161: the reader state of a buffer, by its length and the length field at offset 6. -/
def Obligations.ReaderStateOfBuffer : Prop :=
  ∀ A : Bytes,
    readerState A =
      if A.length < 26 then .wantHeader
      else if A.length < 26 + rdLe A 6 4 then .wantPayload (BitVec.ofNat 32 (rdLe A 6 4))
      else .frameReady

/-- R162: AFRM hands the first whole frame of the buffer on and keeps the rest, with the rest's
reader state; the other exchange registers are cleared, and nothing else changes. With the assembler
absent its code is an illegal command: it faults, or is dropped in Failed, in Closed and before the
first RESET (R68). -/
def Obligations.AfrmHandsOnFrame : Prop :=
  encode .afrm = [0x08] ∧
  (∀ (s : State) (a : Assembler),
    s.created = true → (s.st = .idle ∨ s.st = .sent) → s.asm = some a → a.amode = .frameReady →
    26 + rdLe a.abuf 6 4 ≤ a.abuf.length →
    Sys2Proof.Machine.exec .afrm s =
      .next
        { s with
          rx := some (a.abuf.take (26 + rdLe a.abuf 6 4))
          hdr := none, pin := none, sdec := none, tseq := none, pout := none,
          basis := none, hbytes := none
          asm := some
            ⟨readerState (a.abuf.drop (26 + rdLe a.abuf 6 4)),
              a.abuf.drop (26 + rdLe a.abuf 6 4)⟩
          st := .received }) ∧
  ∀ s : State, s.asm = none →
    Sys2Proof.Machine.exec .afrm s =
      .next
        (if s.created = false ∨ s.st = .failed ∨ s.st = .closed then s
        else
          { s with err := .illegalCommand, st := .failed, out := s.out ++ [.fault 0x07] })

/-- R151: CLOSE of a channel that is not busy, in Idle, Sent or Failed, emits the notification and
then the observer event, clears the exchange and assembler registers and moves to Closed; `err` and
everything else is kept. -/
def Obligations.CloseDisconnects : Prop :=
  encode .close = [0x11] ∧
  ∀ s : State,
    s.created = true → (s.st = .idle ∨ s.st = .sent ∨ s.st = .failed) → ¬ ChannelBusy s →
    Sys2Proof.Machine.exec .close s =
      .next
        { s with
          rx := none, hdr := none, pin := none, sdec := none, tseq := none, pout := none,
          basis := none, hbytes := none
          asm := s.asm.map fun _ => ⟨.wantHeader, []⟩
          out := s.out ++ [.notifyDisconnect, .obsDisconnect]
          st := .closed }

/-! ## Commands that are not enabled, and illegal codes -/

/-- R122, with the preconditions of R66 and R152: a command whose precondition does not hold, on a
channel that exists, is dropped with no change and no output in Failed and in Closed, and faults
with ORDER_VIOLATION, before any effect of its own, in every other state. That RESET's precondition
does not hold in Idle and Sent with a frame ready in the assembler is the model's reading of R152
beside R150 (log entry 8). AFRM without the assembler is no command (R68) and is left to its own
statement. -/
def Obligations.CommandNotEnabled : Prop :=
  ∀ (i : Instr) (s : State),
    s.created = true → ¬ Precondition s i → ¬ (i = .afrm ∧ s.asm = none) →
    Sys2Proof.Machine.exec i s =
      .next
        (if s.st = .failed ∨ s.st = .closed then s
        else
          { s with err := .orderViolation, st := .failed, out := s.out ++ [.fault 0x06] })

/-- R200: before its first RESET a channel takes no command but RESET. That the others are dropped,
as R68 says of illegal codes, is the model's reading (log entry 7). -/
def Obligations.NothingBeforeFirstReset : Prop :=
  ∀ (i : Instr) (s : State), s.created = false → i ≠ .reset →
    Sys2Proof.Machine.exec i s = .next s

/-- R122, R152: a host event taken from the stream while the channel is busy, inside an exchange or
with a whole frame waiting in the assembler, faults with ORDER_VIOLATION. For RESET in Idle or Sent
with a frame waiting this is the model's reading of R152 beside R150 (log entry 8). -/
def Obligations.HostEventWhileBusyFaults : Prop :=
  ∀ (e : HostEvent) (s : State), s.created = true → ChannelBusy s →
    Sys2Proof.Machine.exec e.instr s =
      .next { s with err := .orderViolation, st := .failed, out := s.out ++ [.fault 0x06] }

/-- R68: a code that selects no command faults with ILLEGAL_COMMAND, or is dropped in Failed, in
Closed and before the first RESET. That it uses up one byte is the model's reading (log entry
13). -/
def Obligations.IllegalCodeFaults : Prop :=
  ∀ (s : State) (b : Byte) (rest : Bytes),
    s.cmds = b :: rest →
    (b.toNat = 0 ∨ 0x09 ≤ b.toNat ∧ b.toNat ≤ 0x0F ∨ 0x13 ≤ b.toNat) →
    Sys2Proof.Machine.step s =
      .next
        (if s.created = false ∨ s.st = .failed ∨ s.st = .closed then { s with cmds := rest }
        else
          { s with
            cmds := rest, err := .illegalCommand, st := .failed,
            out := s.out ++ [.fault 0x07] })

/-- R67, R68: a stream that ends inside a DELIVER, in its length or in its operand, faults with
ILLEGAL_COMMAND, or is dropped in Failed, in Closed and before the first RESET. That the rest of
the stream is used up is the model's reading (log entry 13). -/
def Obligations.TruncatedDeliverFaults : Prop :=
  ∀ (s : State) (bs : Bytes),
    s.cmds = 0x10 :: bs → (bs.length < 4 ∨ bs.length < 4 + rdLe bs 0 4) →
    Sys2Proof.Machine.step s =
      .next
        (if s.created = false ∨ s.st = .failed ∨ s.st = .closed then { s with cmds := [] }
        else
          { s with
            cmds := [], err := .illegalCommand, st := .failed, out := s.out ++ [.fault 0x07] })

/-! ## Decoding and stepping -/

/-- R66, R67: command words written out from the table. -/
def Obligations.WrittenWordsDecode : Prop :=
  decode [0x01, 0x02] = .command .hdec [0x02] ∧
    decode [0x07] = .command .send [] ∧
    decode [0x08] = .command .afrm [] ∧
    decode [0x10, 0x02, 0x00, 0x00, 0x00, 0xAB, 0xCD, 0x12] =
      .command (.deliver [0xAB, 0xCD]) [0x12] ∧
    decode [0x11, 0x12] = .command .close [0x12]

/-- R66, R67: every command that has an encoding is read back from its bytes, with whatever follows
it left in the stream. -/
def Obligations.DecodeAfterEncode : Prop :=
  ∀ (i : Instr) (rest : Bytes), i.wellFormed = true → decode (encode i ++ rest) = .command i rest

/-- R66, R67: what decodes to a command is exactly that command's bytes: no second encoding of any
command is accepted. -/
def Obligations.EncodeAfterDecode : Prop :=
  ∀ (bs rest : Bytes) (i : Instr), decode bs = .command i rest →
    i.wellFormed = true ∧ bs = encode i ++ rest

/-- R67, R122: when the head of the stream decodes to a command, the step is that command's meaning
in the state that has moved past its bytes. That the stream is held in the state, and that its
command runs at the very next step (log entry 4), before the block's own enabled step and before any
waiting host event (log entry 6), is the model's. -/
def Obligations.StepRunsDecodedCommand : Prop :=
  ∀ (s : State) (i : Instr) (rest : Bytes), decode s.cmds = .command i rest →
    Sys2Proof.Machine.step s = Sys2Proof.Machine.exec i { s with cmds := rest }

/-- R152, R176, R184: with no command in the stream, a busy channel takes its enabled block step; a
channel that is not busy takes the oldest waiting host event that is enabled, the others waiting on;
with neither it holds its state. The choice of the oldest, and that the block steps by itself when
the stream is empty, are the model's (log entries 5 and 6). -/
def Obligations.StepWithoutCommands : Prop :=
  ∀ s : State, s.cmds = [] →
    (∀ i ∈ blockSteps, s.created = true → Precondition s i →
      Sys2Proof.Machine.step s = Sys2Proof.Machine.exec i s) ∧
    (∀ (older newer : List HostEvent) (e : HostEvent),
      ¬ ChannelBusy s → s.hostq = older ++ e :: newer →
      (∀ x ∈ older, s.enabled x.instr = false) → s.enabled e.instr = true →
      Sys2Proof.Machine.step s =
        Sys2Proof.Machine.exec e.instr { s with hostq := older ++ newer }) ∧
    (¬ ChannelBusy s → (∀ x ∈ s.hostq, s.enabled x.instr = false) →
      Sys2Proof.Machine.step s = .next s)

/-- R66, R120, R152: on a channel that exists, the machine enables a command exactly when its
precondition of R66 holds; at most one block step's holds at any time, and one does exactly when the
channel is busy; while it is busy no host event's does. -/
def Obligations.OneBlockStepWhenBusy : Prop :=
  ∀ s : State, s.created = true →
    (∀ i : Instr, s.enabled i = true ↔ Precondition s i) ∧
    (∀ i ∈ blockSteps, ∀ j ∈ blockSteps, Precondition s i → Precondition s j → i = j) ∧
    (ChannelBusy s ↔ ∃ i ∈ blockSteps, Precondition s i) ∧
    (ChannelBusy s → ∀ e : HostEvent, ¬ Precondition s e.instr)

/-- R5, R6: `exec` and `step` are the machine that takes the batch type and the collaborators as
arguments, at the hardware's own. -/
def Obligations.MachineUsesItsCollaborators : Prop :=
  (∀ (i : Instr) (s : State),
      Sys2Proof.Machine.exec i s = execUnder Config.collaborators i s) ∧
    ∀ s : State, Sys2Proof.Machine.step s = stepUnder Config.collaborators s

/-- R67, R122: a stream of encoded commands runs as the list of commands does, over any
collaborators, and leaves what stands behind it in the stream. That the stream is held in the state,
one command of it taken at each step, is the model's (log entries 4 and 6). -/
def Obligations.StreamRunsAsCommandList : Prop :=
  ∀ (Batch : Type) (c : Collaborators Batch) (is : List Instr) (s : Channel.State Batch)
    (rest : Bytes),
    (∀ i ∈ is, i.wellFormed = true) →
    runSteps c is.length { s with cmds := encodeAll is ++ rest } =
      runCommands c is { s with cmds := rest }

/-! ## The codec, the check and the bootstrap -/

/-- R8: `rd_le` is the little-endian sum, and `le_N` its inverse on every value that fits. -/
def Obligations.LittleEndianSum : Prop :=
  (∀ (B : Bytes) (off n : Nat), off + n ≤ B.length →
      rdLe B off n = ∑ k ∈ Finset.range n, (B.getD (off + k) 0).toNat * 2 ^ (8 * k)) ∧
    ∀ n v : Nat, v < 2 ^ (8 * n) → rdLe (leBytes n v) 0 n = v

/-- R84: decode after encode is the identity on every header. -/
def Obligations.HeaderDecodeAfterEncode : Prop :=
  ∀ (h : Header) (rest : Bytes), decodeHeader ((encodeHeader h).toList ++ rest) = some h

/-- R82, R85: encode after decode gives the first 26 bytes back, and the bytes after them do not
matter. -/
def Obligations.HeaderEncodeAfterDecode : Prop :=
  ∀ B : Bytes, 26 ≤ B.length →
    decodeHeader B = decodeHeader (B.take 26) ∧
      ∃ h, decodeHeader B = some h ∧ (encodeHeader h).toList = B.take 26

/-- R109, R110: the laws of the two-pass emission, for every digest. -/
def Obligations.BootstrapLaws : Prop :=
  ∀ (Batch : Type) (c : Collaborators Batch) (h : Header) (v : BitVec 32),
    let b := bootHeader c h
    decodeHeader b.final.toList = some b.header ∧
      b.header.headerChecksum = c.digest32 (encodeHeader (withHC b.header 0)).toList ∧
      bootHeader c (withHC h v) = b ∧
      b.basis.toList.take 1 = b.final.toList.take 1 ∧
      (b.basis.toList.drop 1).take 4 = [0, 0, 0, 0] ∧
      (b.final.toList.drop 1).take 4 = leBytes 4 b.header.headerChecksum.toNat ∧
      b.basis.toList.drop 5 = b.final.toList.drop 5

/-- R104: comparing the stored checksum bytes with the digest's bytes is the same test as comparing
the values. -/
def Obligations.ByteCompareFormAgrees : Prop :=
  ∀ (Batch : Type) (c : Collaborators Batch) (B P : Bytes) (h : Header),
    decodeHeader B = some h →
    (verifyPayload c P h.payloadChecksum = true ↔
      (B.drop 18).take 8 = leBytes 8 (c.digest64 P).toNat)

/-! ## Whole-machine rules -/

/-- R34, R203, R211: every step of every state answers a next state, keeps every earlier output
event in place, and keeps the ASSEMBLER choice. -/
def Obligations.EveryStepGoesOnAndKeepsHistory : Prop :=
  ∀ s : State, ∃ t, Sys2Proof.Machine.step s = .next t ∧ s.out <+: t.out ∧
    t.asm.isSome = s.asm.isSome

/-- R21, R26 to R31: each exchange register is changed only by the commands its rule names, and by
those that clear it. -/
def Obligations.RegistersHaveTheirWriters : Prop :=
  ∀ (i : Instr) (s t : State), Sys2Proof.Machine.exec i s = .next t →
    ((∃ B, i = .deliver B) ∨ i = .afrm ∨ i = .close ∨ i = .reset) ∨
      (t.rx = s.rx ∧ (t.hdr = s.hdr ∨ i = .hdec ∨ i = .hfin) ∧ (t.pin = s.pin ∨ i = .pver) ∧
        (t.sdec = s.sdec ∨ i = .pdec) ∧ (t.tseq = s.tseq ∨ i = .xfrm) ∧
        (t.pout = s.pout ∨ i = .penc) ∧
        ((t.basis = s.basis ∧ t.hbytes = s.hbytes) ∨ i = .hfin) ∧ t.asm = s.asm)

/-- R22, R120: every change of `st` is one of the sequencer's moves, or a fault. -/
def Obligations.SequencerMoves : Prop :=
  ∀ (i : Instr) (s t : State), Sys2Proof.Machine.exec i s = .next t → s.created = true →
    t.st = s.st ∨ t.st = .failed ∨
      (i, s.st, t.st) ∈
        [(Instr.hdec, St.received, St.headerDecoded), (.pver, .headerDecoded, .payloadVerified),
          (.pdec, .payloadVerified, .payloadDecoded), (.xfrm, .payloadDecoded, .transformed),
          (.penc, .transformed, .payloadEncoded), (.hfin, .payloadEncoded, .headerFinalized),
          (.send, .headerFinalized, .sent), (.afrm, .idle, .received), (.afrm, .sent, .received),
          (.close, .idle, .closed), (.close, .sent, .closed), (.close, .failed, .closed),
          (.reset, .sent, .idle), (.reset, .failed, .idle), (.reset, .closed, .idle)] ∨
      (∃ B, i = .deliver B) ∧ (s.st = .idle ∨ s.st = .sent) ∧ t.st = .received

/-- R23, R173, R177: once a fault is recorded, no command but RESET changes `err`, and only CLOSE
and RESET leave Failed. The premise is a clause of the model's invariant. -/
def Obligations.FirstFaultIsKept : Prop :=
  ∀ (i : Instr) (s t : State), FaultLatched s → s.err ≠ .none → i ≠ .reset →
    s.created = true → Sys2Proof.Machine.exec i s = .next t →
    t.err = s.err ∧ (s.st = .failed → t.st = .failed ∨ i = .close ∧ t.st = .closed)

/-- R90, R91: no command but HDEC changes the four opaque header fields, whatever their values;
DELIVER, AFRM, CLOSE and RESET clear the whole register. -/
def Obligations.OpaqueFieldsPassThrough : Prop :=
  ∀ (i : Instr) (s t : State) (h : Header), s.hdr = some h → i ≠ .hdec →
    Sys2Proof.Machine.exec i s = .next t →
    t.hdr = none ∨ ∃ h', t.hdr = some h' ∧ h'.version = h.version ∧
      h'.compression = h.compression ∧ h'.metaWord = h.metaWord ∧
      h'.correlationId = h.correlationId

/-- R105, R207: the codec is consulted on no payload but the state's own, and on that one only when
its digest is the claimed one: two machines that differ only in their codecs, and agree on that
payload if it is verified, take the same next state on every command, from every state of the
invariant. -/
def Obligations.OnlyVerifiedPayloadReachesCodec : Prop :=
  ∀ (Batch : Type) (c c' : Collaborators Batch) (i : Instr) (s : Channel.State Batch),
    c'.digest32 = c.digest32 → c'.digest64 = c.digest64 → c'.pencode = c.pencode →
    (∀ B h P, s.rx = some B → s.hdr = some h → Verified c B h P → c'.pdecode P = c.pdecode P) →
    Inv c s → execUnder c i s = execUnder c' i s

/-- R174: an exchange on a delivery whose check fails comes to the same state whatever the codec
is. -/
def Obligations.FailedCheckNeverReachesCodec : Prop :=
  ∀ (Batch : Type) (c c' : Collaborators Batch) (s : Channel.State Batch) (B : Bytes)
    (h : Header),
    c'.digest32 = c.digest32 → c'.digest64 = c.digest64 → c'.pencode = c.pencode →
    s.created = true → (s.st = .idle ∨ s.st = .sent) → s.asm = none →
    decodeHeader B = some h →
    c.digest64 ((B.drop 26).take h.payloadLength.toNat) ≠ h.payloadChecksum →
    runCommands c (Instr.xchg B) s = runCommands c' (Instr.xchg B) s

/-- R163: with the assembler present, no command raises SHORT_READ_HEADER or SHORT_READ_PAYLOAD,
from any state of the invariant. -/
def Obligations.AssemblerNeverShortReads : Prop :=
  ∀ (i : Instr) (s t : State), Inv Config.collaborators s → s.asm.isSome = true →
    Sys2Proof.Machine.exec i s = .next t →
    t.err = s.err ∨ t.err ≠ .shortReadHeader ∧ t.err ≠ .shortReadPayload

/-- R61, R160: with the assembler present, delivering bytes in two pieces, the first of which does
not complete a frame, is delivering them in one. -/
def Obligations.SplitDeliveryIsOneDelivery : Prop :=
  ∀ (s t : State) (a : Assembler) (A B : Bytes),
    s.asm = some a → readerState (a.abuf ++ A) ≠ .frameReady →
    s.created = true → (s.st = .idle ∨ s.st = .sent) → a.amode ≠ .frameReady →
    Sys2Proof.Machine.exec (.deliver A) s = .next t →
    Sys2Proof.Machine.exec (.deliver B) t = Sys2Proof.Machine.exec (.deliver (A ++ B)) s

/-- R50, R182: a step of one channel changes no other channel, and steps of two channels commute, so
no interleaving of channels can be told from another by any one of them. -/
def Obligations.ChannelsAreIndependent : Prop :=
  ∀ (channels : List State) (j k : Nat), j ≠ k →
    (∀ after, stepChannel channels k = .next after → after[j]? = channels[j]?) ∧
    runChannels channels [j, k] = runChannels channels [k, j]

/-- R153: a run that has ended stays as it is, and from the invariant its final state is clean,
faulted, pending, or Closed after a fault. The last case is one R153 does not name; it is R151's
CLOSE, which keeps `err`. -/
def Obligations.EndOfRunIsClassified : Prop :=
  ∀ s : State, Inv Config.collaborators s → s.created = true → RunEnded s →
    Sys2Proof.Machine.step s = .next s ∧
      (Clean s ∨ Faulted s ∨ Pending s ∨ s.st = .closed ∧ s.err ≠ .none)

/-! ## Headlines -/

/-- R146, R148, R175: over any collaborators, the canonical exchange of the machine comes to what
the function EXCHANGE of the spec says, from Idle or Sent without the assembler (with it, the next
statement): one `tx` event with that frame and state Sent, or one `fault` event with that code and
state Failed; nothing else is output. -/
def Obligations.ExchangeMatchesSpecFunction : Prop :=
  ∀ (Batch : Type) (c : Collaborators Batch) (s : Channel.State Batch) (B : Bytes),
    s.created = true → (s.st = .idle ∨ s.st = .sent) → s.asm = none →
    ∃ t, runCommands c (Instr.xchg B) s = .next t ∧
      observation t =
        (match exchange c B with
        | .frame F => (s.out ++ [.tx F], .sent, s.err)
        | .fault code => (s.out ++ [.fault code.code], .failed, code))

/-- R146, R162: with the assembler present, the exchange that AFRM starts comes to what EXCHANGE
says of the frame AFRM hands on, with the rest of the buffer and its reader state left in the
assembler: one `tx` event and state Sent, or one `fault` event and state Failed. -/
def Obligations.AssembledExchangeMatchesSpecFunction : Prop :=
  ∀ (Batch : Type) (c : Collaborators Batch) (s : Channel.State Batch) (a : Assembler)
    (F rest : Bytes),
    s.created = true → (s.st = .idle ∨ s.st = .sent) → s.asm = some a → a.amode = .frameReady →
    splitFrame a.abuf = some (F, rest) →
    ∃ t, runCommands c (.afrm :: Instr.exchangeSteps) s = .next t ∧
      t.asm = some ⟨readerState rest, rest⟩ ∧
      observation t =
        (match exchange c F with
        | .frame G => (s.out ++ [.tx G], .sent, s.err)
        | .fault code => (s.out ++ [.fault code.code], .failed, code))

/-- R147: the properties of a successful exchange, for every digest and codec. -/
def Obligations.SuccessfulExchangeProperties : Prop :=
  ∀ (Batch : Type) (c : Collaborators Batch) (B F : Bytes) (h : Header),
    exchange c B = .frame F → decodeHeader B = some h →
    ∃ hf S,
      decodeHeader F = some hf ∧
      hf.payloadLength.toNat = h.payloadLength.toNat + 4 ∧
      c.pdecode ((B.drop 26).take h.payloadLength.toNat) = some S ∧
      F.drop 26 = c.pencode [S] ∧
      (∀ decode2, c.RoundTrip decode2 → decode2 (F.drop 26) = some [S]) ∧
      hf.payloadChecksum = c.digest64 (c.pencode [S]) ∧
      hf.headerChecksum = c.digest32 (basisBytes hf).toList ∧
      hf.version = h.version ∧ hf.compression = h.compression ∧ hf.metaWord = h.metaWord ∧
      hf.correlationId = h.correlationId ∧
      (WellFormedFrame c F ↔
        (c.pencode [S]).length = ((B.drop 26).take h.payloadLength.toNat).length + 4)

/-- R147, decision D9: under CODEC-NEST4 every frame an exchange emits is well formed. -/
def Obligations.Nest4FramesAreWellFormed : Prop :=
  ∀ (Batch : Type) (c : Collaborators Batch) (B F : Bytes), c.Nest4 →
    exchange c B = .frame F → WellFormedFrame c F

/-- R106: a delivery with any inbound header checksum is processed exactly as the same delivery with
another one. -/
def Obligations.InboundHeaderChecksumIgnored : Prop :=
  ∀ (Batch : Type) (c : Collaborators Batch) (s t t' : Channel.State Batch) (B q : Bytes),
    s.created = true → (s.st = .idle ∨ s.st = .sent) → s.asm = none →
    5 ≤ B.length → q.length = 4 →
    runCommands c (Instr.xchg B) s = .next t →
    runCommands c (Instr.xchg (B.take 1 ++ q ++ B.drop 5)) s = .next t' →
    observation t' = observation t

/-- R37: the invariant holds right after reset, and before the first RESET, whatever the
collaborators. -/
def Obligations.InvariantHoldsAtReset : Prop :=
  ∀ (Batch : Type) (c : Collaborators Batch), Inv c Channel.State.reset ∧
    Inv c (Channel.State.uncreated none) ∧ Inv c (Channel.State.uncreated (some Assembler.reset))

/-- R23, R26 to R32, R105, R151, R161, R163, R200: every step keeps the invariant: each state of the
sequencer holds exactly the registers the steps before it computed, a payload past PVER has the
claimed digest, a fault is latched exactly in Failed, and the reader state is that of the buffer. -/
def Obligations.EveryStepKeepsInvariant : Prop :=
  ∀ s t : State, Inv Config.collaborators s → Sys2Proof.Machine.step s = .next t →
    Inv Config.collaborators t

/-- R108, R111: every frame in the output history carries its own header check, and every step from
the invariant keeps it so. -/
def Obligations.EverySentFrameIsCertified : Prop :=
  ∀ s t : State, Inv Config.collaborators s → SentCertified Config.collaborators s →
    Sys2Proof.Machine.step s = .next t → SentCertified Config.collaborators t

/-- R210: with no command in the stream, a channel inside an exchange comes to Sent or Failed after
at most seven steps. That the block takes its enabled step at once when the stream is empty is the
model's (log entries 6 and 15); that every collaborator call returns is assumed (log entry 17), and
on hardware whose collaborator hangs this is false, as R211 says. -/
def Obligations.ExchangeEndsWithinSevenSteps : Prop :=
  ∀ s : State, s.created = true → s.st.busy = true → s.cmds = [] →
    ∃ k ≤ 7, ∃ t : State, Host.Core.run Sys2Proof.core k s = .next t ∧
      (t.st = .sent ∨ t.st = .failed)
end

