-- ==== Sys2Proof/Laws/Bytes.lean ====
section
/-! SUPPORT. Byte order and buffer access: what `leValue`, `leBytes`, `rdLe`, `memRead` and
`memWrite` can do. -/

namespace Sys2Proof.Machine

@[simp] theorem leValue_nil : leValue [] = 0 := rfl

@[simp] theorem leValue_cons (b : Byte) (bs : Bytes) :
    leValue (b :: bs) = b.toNat + 256 * leValue bs := rfl

@[simp] theorem leBytes_zero (v : Nat) : leBytes 0 v = [] := rfl

theorem leBytes_succ (n v : Nat) :
    leBytes (n + 1) v = BitVec.ofNat 8 v :: leBytes n (v / 256) := rfl

theorem leValue_lt (bs : Bytes) : leValue bs < 256 ^ bs.length := by
  induction bs with
  | nil => simp
  | cons b bs ih =>
    have hb : b.toNat < 256 := b.isLt
    simp only [leValue_cons, List.length_cons, pow_succ]
    omega

/-- Reading back `n` little-endian bytes gives the value modulo their width. -/
theorem leValue_leBytes (n v : Nat) : leValue (leBytes n v) = v % 256 ^ n := by
  induction n generalizing v with
  | zero => simp [Nat.mod_one]
  | succ n ih =>
    have hp : 256 ^ (n + 1) = 256 * 256 ^ n := by ring
    have h8 : (BitVec.ofNat 8 v).toNat = v % 256 := BitVec.toNat_ofNat v 8
    rw [leBytes_succ, leValue_cons, ih, h8, hp, Nat.mod_mul]

/-- Writing back the value of bytes gives the bytes. -/
theorem leBytes_leValue (bs : Bytes) : leBytes bs.length (leValue bs) = bs := by
  induction bs with
  | nil => rfl
  | cons b bs ih =>
    have hb : b.toNat < 256 := b.isLt
    have hq : (b.toNat + 256 * leValue bs) / 256 = leValue bs := by omega
    have hr : BitVec.ofNat 8 (b.toNat + 256 * leValue bs) = b := by
      apply BitVec.eq_of_toNat_eq
      simp only [BitVec.toNat_ofNat]
      omega
    simp only [leValue_cons, List.length_cons, leBytes_succ, hq, hr, ih]

theorem memRead_eq_some_iff {buf P : Bytes} {off n : Nat} :
    memRead buf off n = some P ↔ off + n ≤ buf.length ∧ (buf.drop off).take n = P := by
  unfold memRead
  split <;> simp_all

theorem memRead_eq_none_iff {buf : Bytes} {off n : Nat} :
    memRead buf off n = none ↔ buf.length < off + n := by
  unfold memRead
  split
  · simp only [reduceCtorEq, false_iff]
    omega
  · simp only [true_iff]
    omega

theorem memRead_of_le {buf : Bytes} {off n : Nat} (h : off + n ≤ buf.length) :
    memRead buf off n = some ((buf.drop off).take n) := by
  simp [memRead, h]

/-- Reading a field depends on the bytes up to its end alone. -/
theorem rdLe_take (B : Bytes) {off n m : Nat} (h : off + n ≤ m) :
    rdLe (B.take m) off n = rdLe B off n := by
  unfold rdLe
  rw [List.drop_take, List.take_take]
  congr 2
  omega

theorem rdLe_lt (B : Bytes) (off n : Nat) : rdLe B off n < 256 ^ n :=
  Nat.lt_of_lt_of_le (leValue_lt _)
    (Nat.pow_le_pow_right (by omega) (by simp [List.length_take]))

end Sys2Proof.Machine
end

