-- ==== Sys2Proof/Laws/Codec.lean ====
section
/-! SUPPORT. What HDR.DECODE, HDR.ENCODE, PL.VERIFY and ASM can do, said once. -/

namespace Sys2Proof.Machine

open Sys2Proof.Config

variable {Batch : Type}

/-- The bytes of a header, field after field: the seven writes cover the 26 bytes. -/
theorem headerBytes_eq (h : Header) :
    headerBytes h =
      leBytes 1 h.version.toNat ++ (leBytes 4 h.headerChecksum.toNat ++
        (leBytes 1 h.compression.toNat ++ (leBytes 4 h.payloadLength.toNat ++
          (leBytes 4 h.metaWord.toNat ++ (leBytes 4 h.correlationId.toNat ++
            leBytes 8 h.payloadChecksum.toNat))))) := by
  simp [headerBytes, writeField, memWrite, versionAt, headerChecksumAt, compressionAt,
    payloadLengthAt, metaAt, correlationIdAt, payloadChecksumAt, List.replicate, leBytes]

/-- Decoding fails exactly on fewer than 26 bytes (R81). -/
theorem decodeHeader_eq_none_iff (B : Bytes) : decodeHeader B = none ↔ B.length < 26 := by
  unfold decodeHeader
  cases hB : memRead B 0 hdrSize with
  | none =>
    rw [memRead_eq_none_iff] at hB
    simpa [hdrSize] using hB
  | some H =>
    rw [memRead_eq_some_iff] at hB
    have := hB.1
    simp only [hdrSize] at this
    simp only [reduceCtorEq, false_iff]
    omega

/-- The fields of a delivery of at least 26 bytes, read at their offsets (R80). -/
theorem decodeHeader_of_le {B : Bytes} (hB : 26 ≤ B.length) :
    decodeHeader B =
      some
        { version := BitVec.ofNat 8 (rdLe B 0 1)
          headerChecksum := BitVec.ofNat 32 (rdLe B 1 4)
          compression := BitVec.ofNat 8 (rdLe B 5 1)
          payloadLength := BitVec.ofNat 32 (rdLe B 6 4)
          metaWord := BitVec.ofNat 32 (rdLe B 10 4)
          correlationId := BitVec.ofNat 32 (rdLe B 14 4)
          payloadChecksum := BitVec.ofNat 64 (rdLe B 18 8) } := by
  have hr : memRead B 0 hdrSize = some (B.take 26) := by
    rw [memRead_of_le (by simpa [hdrSize] using hB)]
    simp [hdrSize]
  simp only [decodeHeader, hr, readField, versionAt, headerChecksumAt, compressionAt,
    payloadLengthAt, metaAt, correlationIdAt, payloadChecksumAt]
  simp only [rdLe_take B (show 0 + 1 ≤ 26 by omega), rdLe_take B (show 1 + 4 ≤ 26 by omega),
    rdLe_take B (show 5 + 1 ≤ 26 by omega), rdLe_take B (show 6 + 4 ≤ 26 by omega),
    rdLe_take B (show 10 + 4 ≤ 26 by omega), rdLe_take B (show 14 + 4 ≤ 26 by omega),
    rdLe_take B (show 18 + 8 ≤ 26 by omega)]

theorem length_of_decodeHeader {B : Bytes} {h : Header} (hB : decodeHeader B = some h) :
    26 ≤ B.length := by
  by_contra hlt
  have : decodeHeader B = none := (decodeHeader_eq_none_iff B).2 (by omega)
  simp [this] at hB

/-- The decoded payload length is the length field of the bytes (R87). -/
theorem payloadLength_of_decodeHeader {B : Bytes} {h : Header} (hB : decodeHeader B = some h) :
    h.payloadLength.toNat = rdLe B 6 4 := by
  rw [decodeHeader_of_le (length_of_decodeHeader hB)] at hB
  obtain rfl := Option.some.inj hB
  have := rdLe_lt B 6 4
  simp only [BitVec.toNat_ofNat]
  omega

@[simp] theorem verifyPayload_iff (c : Collaborators Batch) (P : Bytes) (v : BitVec 64) :
    verifyPayload c P v = true ↔ c.digest64 P = v := by
  simp [verifyPayload]

@[simp] theorem bootHeader_basis (c : Collaborators Batch) (h : Header) :
    (bootHeader c h).basis = basisBytes h := rfl

@[simp] theorem bootHeader_header (c : Collaborators Batch) (h : Header) :
    (bootHeader c h).header = withHC h (headerCheck c h) := rfl

@[simp] theorem bootHeader_final (c : Collaborators Batch) (h : Header) :
    (bootHeader c h).final = encodeHeader (withHC h (headerCheck c h)) := rfl

/-- The basis bytes do not depend on the header checksum (R107). -/
@[simp] theorem basisBytes_withHC (h : Header) (v : BitVec 32) :
    basisBytes (withHC h v) = basisBytes h := rfl

end Sys2Proof.Machine
end

