-- ==== Sys2Proof/Laws/State.lean ====
section
/-! SUPPORT. What each shared update of the state leaves in each field, for the simplifier. -/

namespace Sys2Proof.Machine

variable {Batch : Type} (s : Channel.State Batch)

@[simp] theorem Channel.State.emit_created (e : Event) : (s.emit e).created = s.created := rfl
@[simp] theorem Channel.State.emit_st (e : Event) : (s.emit e).st = s.st := rfl
@[simp] theorem Channel.State.emit_err (e : Event) : (s.emit e).err = s.err := rfl
@[simp] theorem Channel.State.emit_rx (e : Event) : (s.emit e).rx = s.rx := rfl
@[simp] theorem Channel.State.emit_hdr (e : Event) : (s.emit e).hdr = s.hdr := rfl
@[simp] theorem Channel.State.emit_pin (e : Event) : (s.emit e).pin = s.pin := rfl
@[simp] theorem Channel.State.emit_sdec (e : Event) : (s.emit e).sdec = s.sdec := rfl
@[simp] theorem Channel.State.emit_tseq (e : Event) : (s.emit e).tseq = s.tseq := rfl
@[simp] theorem Channel.State.emit_pout (e : Event) : (s.emit e).pout = s.pout := rfl
@[simp] theorem Channel.State.emit_basis (e : Event) : (s.emit e).basis = s.basis := rfl
@[simp] theorem Channel.State.emit_hbytes (e : Event) : (s.emit e).hbytes = s.hbytes := rfl
@[simp] theorem Channel.State.emit_out (e : Event) : (s.emit e).out = s.out ++ [e] := rfl
@[simp] theorem Channel.State.emit_asm (e : Event) : (s.emit e).asm = s.asm := rfl
@[simp] theorem Channel.State.emit_cmds (e : Event) : (s.emit e).cmds = s.cmds := rfl
@[simp] theorem Channel.State.emit_hostq (e : Event) : (s.emit e).hostq = s.hostq := rfl

@[simp] theorem Channel.State.raise_created (c : FaultCode) :
    (s.raise c).created = s.created := rfl
@[simp] theorem Channel.State.raise_st (c : FaultCode) : (s.raise c).st = .failed := rfl
@[simp] theorem Channel.State.raise_err (c : FaultCode) : (s.raise c).err = c := rfl
@[simp] theorem Channel.State.raise_rx (c : FaultCode) : (s.raise c).rx = s.rx := rfl
@[simp] theorem Channel.State.raise_hdr (c : FaultCode) : (s.raise c).hdr = s.hdr := rfl
@[simp] theorem Channel.State.raise_pin (c : FaultCode) : (s.raise c).pin = s.pin := rfl
@[simp] theorem Channel.State.raise_sdec (c : FaultCode) : (s.raise c).sdec = s.sdec := rfl
@[simp] theorem Channel.State.raise_tseq (c : FaultCode) : (s.raise c).tseq = s.tseq := rfl
@[simp] theorem Channel.State.raise_pout (c : FaultCode) : (s.raise c).pout = s.pout := rfl
@[simp] theorem Channel.State.raise_basis (c : FaultCode) : (s.raise c).basis = s.basis := rfl
@[simp] theorem Channel.State.raise_hbytes (c : FaultCode) :
    (s.raise c).hbytes = s.hbytes := rfl
@[simp] theorem Channel.State.raise_out (c : FaultCode) :
    (s.raise c).out = s.out ++ [.fault c.code] := rfl
@[simp] theorem Channel.State.raise_asm (c : FaultCode) : (s.raise c).asm = s.asm := rfl
@[simp] theorem Channel.State.raise_cmds (c : FaultCode) : (s.raise c).cmds = s.cmds := rfl
@[simp] theorem Channel.State.raise_hostq (c : FaultCode) : (s.raise c).hostq = s.hostq := rfl

@[simp] theorem Channel.State.clearDerived_created : (s.clearDerived).created = s.created := rfl
@[simp] theorem Channel.State.clearDerived_st : (s.clearDerived).st = s.st := rfl
@[simp] theorem Channel.State.clearDerived_err : (s.clearDerived).err = s.err := rfl
@[simp] theorem Channel.State.clearDerived_rx : (s.clearDerived).rx = s.rx := rfl
@[simp] theorem Channel.State.clearDerived_hdr : (s.clearDerived).hdr = none := rfl
@[simp] theorem Channel.State.clearDerived_pin : (s.clearDerived).pin = none := rfl
@[simp] theorem Channel.State.clearDerived_sdec : (s.clearDerived).sdec = none := rfl
@[simp] theorem Channel.State.clearDerived_tseq : (s.clearDerived).tseq = none := rfl
@[simp] theorem Channel.State.clearDerived_pout : (s.clearDerived).pout = none := rfl
@[simp] theorem Channel.State.clearDerived_basis : (s.clearDerived).basis = none := rfl
@[simp] theorem Channel.State.clearDerived_hbytes : (s.clearDerived).hbytes = none := rfl
@[simp] theorem Channel.State.clearDerived_out : (s.clearDerived).out = s.out := rfl
@[simp] theorem Channel.State.clearDerived_asm : (s.clearDerived).asm = s.asm := rfl
@[simp] theorem Channel.State.clearDerived_cmds : (s.clearDerived).cmds = s.cmds := rfl
@[simp] theorem Channel.State.clearDerived_hostq : (s.clearDerived).hostq = s.hostq := rfl

@[simp] theorem Channel.State.clearExchange_created :
    (s.clearExchange).created = s.created := rfl
@[simp] theorem Channel.State.clearExchange_st : (s.clearExchange).st = s.st := rfl
@[simp] theorem Channel.State.clearExchange_err : (s.clearExchange).err = s.err := rfl
@[simp] theorem Channel.State.clearExchange_rx : (s.clearExchange).rx = none := rfl
@[simp] theorem Channel.State.clearExchange_hdr : (s.clearExchange).hdr = none := rfl
@[simp] theorem Channel.State.clearExchange_pin : (s.clearExchange).pin = none := rfl
@[simp] theorem Channel.State.clearExchange_sdec : (s.clearExchange).sdec = none := rfl
@[simp] theorem Channel.State.clearExchange_tseq : (s.clearExchange).tseq = none := rfl
@[simp] theorem Channel.State.clearExchange_pout : (s.clearExchange).pout = none := rfl
@[simp] theorem Channel.State.clearExchange_basis : (s.clearExchange).basis = none := rfl
@[simp] theorem Channel.State.clearExchange_hbytes : (s.clearExchange).hbytes = none := rfl
@[simp] theorem Channel.State.clearExchange_out : (s.clearExchange).out = s.out := rfl
@[simp] theorem Channel.State.clearExchange_asm : (s.clearExchange).asm = s.asm := rfl
@[simp] theorem Channel.State.clearExchange_cmds : (s.clearExchange).cmds = s.cmds := rfl
@[simp] theorem Channel.State.clearExchange_hostq : (s.clearExchange).hostq = s.hostq := rfl

@[simp] theorem Channel.State.clearAssembler_created :
    (s.clearAssembler).created = s.created := rfl
@[simp] theorem Channel.State.clearAssembler_st : (s.clearAssembler).st = s.st := rfl
@[simp] theorem Channel.State.clearAssembler_err : (s.clearAssembler).err = s.err := rfl
@[simp] theorem Channel.State.clearAssembler_rx : (s.clearAssembler).rx = s.rx := rfl
@[simp] theorem Channel.State.clearAssembler_hdr : (s.clearAssembler).hdr = s.hdr := rfl
@[simp] theorem Channel.State.clearAssembler_pin : (s.clearAssembler).pin = s.pin := rfl
@[simp] theorem Channel.State.clearAssembler_sdec : (s.clearAssembler).sdec = s.sdec := rfl
@[simp] theorem Channel.State.clearAssembler_tseq : (s.clearAssembler).tseq = s.tseq := rfl
@[simp] theorem Channel.State.clearAssembler_pout : (s.clearAssembler).pout = s.pout := rfl
@[simp] theorem Channel.State.clearAssembler_basis : (s.clearAssembler).basis = s.basis := rfl
@[simp] theorem Channel.State.clearAssembler_hbytes :
    (s.clearAssembler).hbytes = s.hbytes := rfl
@[simp] theorem Channel.State.clearAssembler_out : (s.clearAssembler).out = s.out := rfl
@[simp] theorem Channel.State.clearAssembler_asm :
    (s.clearAssembler).asm = s.asm.map fun _ => Assembler.reset := rfl
@[simp] theorem Channel.State.clearAssembler_cmds : (s.clearAssembler).cmds = s.cmds := rfl
@[simp] theorem Channel.State.clearAssembler_hostq : (s.clearAssembler).hostq = s.hostq := rfl

/-- Two states are equal when every field is. -/
theorem Channel.State.ext_fields {s t : Channel.State Batch}
    (created : s.created = t.created) (st : s.st = t.st)
    (err : s.err = t.err) (rx : s.rx = t.rx) (hdr : s.hdr = t.hdr) (pin : s.pin = t.pin)
    (sdec : s.sdec = t.sdec) (tseq : s.tseq = t.tseq) (pout : s.pout = t.pout)
    (basis : s.basis = t.basis) (hbytes : s.hbytes = t.hbytes) (out : s.out = t.out)
    (asm : s.asm = t.asm) (cmds : s.cmds = t.cmds) (hostq : s.hostq = t.hostq) : s = t := by
  cases s
  cases t
  simp_all

end Sys2Proof.Machine
end

