-- ==== Sys2Proof/Laws/Ops.lean ====
section
/-! SUPPORT. What taking a command, reading a register and taking a fault can do, said once. -/

namespace Sys2Proof.Machine

variable {Batch : Type}

/-- A command's two outcomes: its effect when it is enabled, else R122. -/
theorem Channel.State.command_cases (s : Channel.State Batch) (i : Instr)
    (effect : Channel.State Batch → Channel.State Batch) :
    s.enabled i = true ∧ s.command i effect = effect s ∨
      s.enabled i = false ∧ s.command i effect = s.notEnabled := by
  unfold Channel.State.command
  cases s.enabled i <;> simp

theorem Channel.State.command_of_enabled {s : Channel.State Batch} {i : Instr}
    {effect : Channel.State Batch → Channel.State Batch}
    (h : s.enabled i = true) : s.command i effect = effect s := by
  simp [Channel.State.command, h]

theorem Channel.State.command_of_not_enabled {s : Channel.State Batch} {i : Instr}
    {effect : Channel.State Batch → Channel.State Batch}
    (h : s.enabled i = false) : s.command i effect = s.notEnabled := by
  simp [Channel.State.command, h]

/-- A rejected command changes nothing or raises its fault. -/
theorem Channel.State.notEnabled_cases (s : Channel.State Batch) :
    s.drops = true ∧ s.notEnabled = s ∨
      s.drops = false ∧ s.notEnabled = s.raise .orderViolation := by
  unfold Channel.State.notEnabled
  cases s.drops <;> simp

theorem Channel.State.illegalCommand_cases (s : Channel.State Batch) :
    s.drops = true ∧ s.illegalCommand = s ∨
      s.drops = false ∧ s.illegalCommand = s.raise .illegalCommand := by
  unfold Channel.State.illegalCommand
  cases s.drops <;> simp

@[simp] theorem Channel.State.withRegister_none {α : Type} (s : Channel.State Batch)
    (next : α → Channel.State Batch) :
    s.withRegister none next = s.raise .orderViolation := rfl

@[simp] theorem Channel.State.withRegister_some {α : Type} (s : Channel.State Batch) (v : α)
    (next : α → Channel.State Batch) :
    s.withRegister (some v) next = next v := rfl

/-- The whole state after a fault is taken (spec/60_exceptions.md R172). -/
theorem Channel.State.raise_eq (s : Channel.State Batch) (code : FaultCode) :
    s.raise code =
      { s with err := code, st := .failed, out := s.out ++ [.fault code.code] } := rfl

theorem Channel.State.drops_eq_true_iff (s : Channel.State Batch) :
    s.drops = true ↔ s.created = false ∨ s.st = .failed ∨ s.st = .closed := by
  simp [Channel.State.drops, or_assoc]

@[simp] theorem St.ready_iff (st : St) : st.ready = true ↔ st = .idle ∨ st = .sent := by
  cases st <;> simp [St.ready]

theorem Channel.State.frameReady_iff (s : Channel.State Batch) :
    s.frameReady = true ↔ ∃ a, s.asm = some a ∧ a.amode = .frameReady := by
  unfold Channel.State.frameReady
  cases s.asm <;> simp

end Sys2Proof.Machine
end

