-- ==== Sys2Proof/Laws/Dispatch.lean ====
section
/-! SUPPORT. The next state of each command, as a function: no command faults the host or is
refused. -/

namespace Sys2Proof.Machine

variable {Batch : Type}

/-- The next state of a command over any collaborators. -/
def after (c : Collaborators Batch) (i : Instr) (s : Channel.State Batch) : Channel.State Batch :=
  match i with
  | .hdec => s.command .hdec hdecEffect
  | .pver => s.command .pver (pverEffect c)
  | .pdec => s.command .pdec (pdecEffect c)
  | .xfrm => s.command .xfrm xfrmEffect
  | .penc => s.command .penc (pencEffect c)
  | .hfin => s.command .hfin (hfinEffect c)
  | .send => s.command .send sendEffect
  | .afrm =>
    match s.asm with
    | none => s.illegalCommand
    | some _ => s.command .afrm afrmEffect
  | .deliver B => s.command (.deliver B) (deliverEffect B)
  | .close => s.command .close closeEffect
  | .reset => s.command .reset resetEffect

theorem execUnder_eq (c : Collaborators Batch) (i : Instr) (s : Channel.State Batch) :
    execUnder c i s = .next (after c i s) := by
  cases i <;> try rfl
  cases h : s.asm <;> simp [execUnder, execAfrm, after, Channel.State.assembler, h]

theorem exec_eq (i : Instr) (s : State) : exec i s = .next (after Config.collaborators i s) := by
  rw [← execUnder_eq]
  cases i <;> rfl

/-- A list of commands always ends in a next state. -/
theorem runCommands_eq (c : Collaborators Batch) (is : List Instr) (s : Channel.State Batch) :
    runCommands c is s = .next (is.foldl (fun t i => after c i t) s) := by
  induction is generalizing s with
  | nil => rfl
  | cons i is ih => simp [runCommands, execUnder_eq, ih]

end Sys2Proof.Machine
end

