-- ==== Sys2Proof/Laws/Moves.lean ====
section
/-! SUPPORT. Everything one command can do to a state, as one inversion lemma: each invariant is a
case analysis over it. -/

namespace Sys2Proof.Machine

variable {Batch : Type}

/-- The moves of a channel on a command: what held before, and the whole state after. -/
inductive Moves (c : Collaborators Batch) (s : Channel.State Batch) :
    Instr → Channel.State Batch → Prop where
  /-- Dropped in Failed, in Closed and before the first RESET (R122). -/
  | dropped (i : Instr) (hd : s.drops = true) : Moves c s i s
  /-- Out of order, or an operand register holds `none` (R122, R32). -/
  | orderViolation (i : Instr) (hd : s.drops = false) : Moves c s i (s.raise .orderViolation)
  /-- AFRM without the assembler (R68). -/
  | illegal (ha : s.asm = none) (hd : s.drops = false) : Moves c s .afrm (s.raise .illegalCommand)
  | hdec (B : Bytes) (h : Header) (hc : s.created = true) (hs : s.st = .received)
      (hr : s.rx = some B) (hh : decodeHeader B = some h) :
      Moves c s .hdec { s with hdr := some h, st := .headerDecoded }
  | hdecShort (B : Bytes) (hc : s.created = true) (hs : s.st = .received)
      (hr : s.rx = some B) (hh : decodeHeader B = none) :
      Moves c s .hdec (s.raise .shortReadHeader)
  | pver (B P : Bytes) (h : Header) (hc : s.created = true) (hs : s.st = .headerDecoded)
      (hr : s.rx = some B) (hh : s.hdr = some h)
      (hp : memRead B 26 h.payloadLength.toNat = some P) (hv : c.digest64 P = h.payloadChecksum) :
      Moves c s .pver { s with pin := some P, st := .payloadVerified }
  | pverShort (B : Bytes) (h : Header) (hc : s.created = true) (hs : s.st = .headerDecoded)
      (hr : s.rx = some B) (hh : s.hdr = some h)
      (hp : memRead B 26 h.payloadLength.toNat = none) :
      Moves c s .pver (s.raise .shortReadPayload)
  | pverMismatch (B P : Bytes) (h : Header) (hc : s.created = true) (hs : s.st = .headerDecoded)
      (hr : s.rx = some B) (hh : s.hdr = some h)
      (hp : memRead B 26 h.payloadLength.toNat = some P) (hv : c.digest64 P ≠ h.payloadChecksum) :
      Moves c s .pver (Channel.State.raise { s with pin := some P } .integrityFailure)
  | pdec (P : Bytes) (S : List Batch) (hc : s.created = true) (hs : s.st = .payloadVerified)
      (hp : s.pin = some P) (hd : c.pdecode P = some S) :
      Moves c s .pdec { s with sdec := some S, st := .payloadDecoded }
  | pdecReject (P : Bytes) (hc : s.created = true) (hs : s.st = .payloadVerified)
      (hp : s.pin = some P) (hd : c.pdecode P = none) :
      Moves c s .pdec (s.raise .codecFailure)
  | xfrm (S : List Batch) (hc : s.created = true) (hs : s.st = .payloadDecoded)
      (hp : s.sdec = some S) : Moves c s .xfrm { s with tseq := some [S], st := .transformed }
  | penc (T : List (List Batch)) (hc : s.created = true) (hs : s.st = .transformed)
      (hp : s.tseq = some T) :
      Moves c s .penc { s with pout := some (c.pencode T), st := .payloadEncoded }
  | hfin (h : Header) (Q : Bytes) (hc : s.created = true) (hs : s.st = .payloadEncoded)
      (hh : s.hdr = some h) (hq : s.pout = some Q) (hl : h.payloadLength.toNat + 4 < 2 ^ 32) :
      Moves c s .hfin
        { s with
          basis := some (bootHeader c (outboundHeader c h Q)).basis
          hbytes := some (bootHeader c (outboundHeader c h Q)).final
          hdr := some (bootHeader c (outboundHeader c h Q)).header
          st := .headerFinalized }
  | hfinOverflow (h : Header) (Q : Bytes) (hc : s.created = true) (hs : s.st = .payloadEncoded)
      (hh : s.hdr = some h) (hq : s.pout = some Q) (hl : 2 ^ 32 ≤ h.payloadLength.toNat + 4) :
      Moves c s .hfin (s.raise .lengthOverflow)
  | send (H : Bytes26) (Q : Bytes) (hc : s.created = true) (hs : s.st = .headerFinalized)
      (hh : s.hbytes = some H) (hq : s.pout = some Q) :
      Moves c s .send (Channel.State.emit { s with st := .sent } (.tx (H.toList ++ Q)))
  | afrm (a : Assembler) (F rest : Bytes) (hc : s.created = true)
      (hs : s.st = .idle ∨ s.st = .sent) (ha : s.asm = some a) (hm : a.amode = .frameReady)
      (hf : splitFrame a.abuf = some (F, rest)) :
      Moves c s .afrm
        { s.clearDerived with
          rx := some F
          asm := some { amode := readerState rest, abuf := rest }
          st := .received }
  | deliver (B : Bytes) (hc : s.created = true) (hs : s.st = .idle ∨ s.st = .sent)
      (ha : s.asm = none) :
      Moves c s (.deliver B) { s.clearDerived with rx := some B, st := .received }
  | deliverBuffer (B : Bytes) (a : Assembler) (hc : s.created = true)
      (hs : s.st = .idle ∨ s.st = .sent) (ha : s.asm = some a) (hb : s.busy = false) :
      Moves c s (.deliver B)
        { s with asm := some { amode := readerState (a.abuf ++ B), abuf := a.abuf ++ B } }
  | close (hc : s.created = true) (hs : s.st = .idle ∨ s.st = .sent ∨ s.st = .failed)
      (hb : s.busy = false) : Moves c s .close (closeEffect s)
  | reset (he : s.enabled .reset = true) : Moves c s .reset (resetEffect s)

theorem drops_of_st {s : Channel.State Batch} {v : St} (hc : s.created = true) (hs : s.st = v)
    (hf : v ≠ .failed) (hk : v ≠ .closed) : s.drops = false := by
  subst hs
  simp [Channel.State.drops, hc, hf, hk]

/-- A command that is not enabled is dropped or out of order. -/
theorem moves_notEnabled (c : Collaborators Batch) (s : Channel.State Batch) (i : Instr) :
    Moves c s i s.notEnabled := by
  rcases s.notEnabled_cases with ⟨hd, h⟩ | ⟨hd, h⟩ <;> rw [h]
  · exact .dropped i hd
  · exact .orderViolation i hd

/-- A command's moves are its effect's, where it is enabled. -/
theorem moves_command {c : Collaborators Batch} {s : Channel.State Batch} {i : Instr}
    {effect : Channel.State Batch → Channel.State Batch}
    (h : s.enabled i = true → Moves c s i (effect s)) : Moves c s i (s.command i effect) := by
  rcases s.command_cases i effect with ⟨he, hq⟩ | ⟨_, hq⟩ <;> rw [hq]
  · exact h he
  · exact moves_notEnabled c s i

theorem moves_hdec (c : Collaborators Batch) (s : Channel.State Batch) :
    Moves c s .hdec (s.command .hdec hdecEffect) := by
  refine moves_command fun he => ?_
  simp only [Channel.State.enabled, Bool.and_eq_true, decide_eq_true_eq] at he
  cases hr : s.rx with
  | none =>
    simp only [hdecEffect, hr, Channel.State.withRegister_none]
    exact .orderViolation _ (drops_of_st he.1 he.2 (by decide) (by decide))
  | some B =>
    simp only [hdecEffect, hr, Channel.State.withRegister_some]
    cases hh : decodeHeader B with
    | none => exact .hdecShort B he.1 he.2 hr hh
    | some h => exact hr ▸ .hdec B h he.1 he.2 hr hh

theorem moves_pver (c : Collaborators Batch) (s : Channel.State Batch) :
    Moves c s .pver (s.command .pver (pverEffect c)) := by
  refine moves_command fun he => ?_
  simp only [Channel.State.enabled, Bool.and_eq_true, decide_eq_true_eq] at he
  have hd := drops_of_st he.1 he.2 (by decide) (by decide)
  unfold pverEffect
  cases hr : s.rx with
  | none => exact .orderViolation _ hd
  | some B =>
    cases hh : s.hdr with
    | none => exact .orderViolation _ hd
    | some h =>
      simp only [Channel.State.withRegister_some]
      cases hp : memRead B Config.hdrSize h.payloadLength.toNat with
      | none => exact .pverShort B h he.1 he.2 hr hh hp
      | some P =>
        by_cases hv : c.digest64 P = h.payloadChecksum
        · simp only [verifyPayload, hv, decide_true, if_true]
          exact hr ▸ hh ▸ .pver B P h he.1 he.2 hr hh hp hv
        · simp only [verifyPayload, hv, decide_false, Bool.false_eq_true, if_false]
          exact hr ▸ hh ▸ .pverMismatch B P h he.1 he.2 hr hh hp hv

theorem moves_pdec (c : Collaborators Batch) (s : Channel.State Batch) :
    Moves c s .pdec (s.command .pdec (pdecEffect c)) := by
  refine moves_command fun he => ?_
  simp only [Channel.State.enabled, Bool.and_eq_true, decide_eq_true_eq] at he
  unfold pdecEffect
  cases hp : s.pin with
  | none => exact .orderViolation _ (drops_of_st he.1 he.2 (by decide) (by decide))
  | some P =>
    simp only [Channel.State.withRegister_some]
    cases hd : c.pdecode P with
    | none => exact .pdecReject P he.1 he.2 hp hd
    | some S => exact hp ▸ .pdec P S he.1 he.2 hp hd

theorem moves_xfrm (c : Collaborators Batch) (s : Channel.State Batch) :
    Moves c s .xfrm (s.command .xfrm xfrmEffect) := by
  refine moves_command fun he => ?_
  simp only [Channel.State.enabled, Bool.and_eq_true, decide_eq_true_eq] at he
  unfold xfrmEffect
  cases hp : s.sdec with
  | none => exact .orderViolation _ (drops_of_st he.1 he.2 (by decide) (by decide))
  | some S =>
    simp only [Channel.State.withRegister_some]
    exact hp ▸ .xfrm S he.1 he.2 hp

theorem moves_penc (c : Collaborators Batch) (s : Channel.State Batch) :
    Moves c s .penc (s.command .penc (pencEffect c)) := by
  refine moves_command fun he => ?_
  simp only [Channel.State.enabled, Bool.and_eq_true, decide_eq_true_eq] at he
  unfold pencEffect
  cases hp : s.tseq with
  | none => exact .orderViolation _ (drops_of_st he.1 he.2 (by decide) (by decide))
  | some T =>
    simp only [Channel.State.withRegister_some]
    exact hp ▸ .penc T he.1 he.2 hp

theorem moves_hfin (c : Collaborators Batch) (s : Channel.State Batch) :
    Moves c s .hfin (s.command .hfin (hfinEffect c)) := by
  refine moves_command fun he => ?_
  simp only [Channel.State.enabled, Bool.and_eq_true, decide_eq_true_eq] at he
  have hd := drops_of_st he.1 he.2 (by decide) (by decide)
  unfold hfinEffect
  cases hh : s.hdr with
  | none => exact .orderViolation _ hd
  | some h =>
    cases hq : s.pout with
    | none => exact .orderViolation _ hd
    | some Q =>
      simp only [Channel.State.withRegister_some]
      by_cases hl : Config.lengthBound ≤ h.payloadLength.toNat + Config.nestDelta
      · rw [if_pos hl]
        exact .hfinOverflow h Q he.1 he.2 hh hq hl
      · rw [if_neg hl]
        exact hq ▸ .hfin h Q he.1 he.2 hh hq (Nat.not_le.1 hl)

theorem moves_send (c : Collaborators Batch) (s : Channel.State Batch) :
    Moves c s .send (s.command .send sendEffect) := by
  refine moves_command fun he => ?_
  simp only [Channel.State.enabled, Bool.and_eq_true, decide_eq_true_eq] at he
  have hd := drops_of_st he.1 he.2 (by decide) (by decide)
  unfold sendEffect
  cases hh : s.hbytes with
  | none => exact .orderViolation _ hd
  | some H =>
    cases hq : s.pout with
    | none => exact .orderViolation _ hd
    | some Q =>
      simp only [Channel.State.withRegister_some]
      exact hh ▸ hq ▸ .send H Q he.1 he.2 hh hq

theorem drops_of_ready {s : Channel.State Batch} (hc : s.created = true)
    (hs : s.st = .idle ∨ s.st = .sent) : s.drops = false := by
  rcases hs with hs | hs <;> exact drops_of_st hc hs (by decide) (by decide)

theorem moves_afrm (c : Collaborators Batch) (s : Channel.State Batch) :
    Moves c s .afrm (after c .afrm s) := by
  unfold after
  cases ha : s.asm with
  | none =>
    rcases s.illegalCommand_cases with ⟨hd, h⟩ | ⟨hd, h⟩ <;> simp only [h]
    · exact .dropped _ hd
    · exact .illegal ha hd
  | some a =>
    refine moves_command fun he => ?_
    simp only [Channel.State.enabled, Bool.and_eq_true, St.ready_iff,
      Channel.State.frameReady_iff, ha, Option.some.injEq, exists_eq_left'] at he
    simp only [afrmEffect, ha, Channel.State.withRegister_some]
    cases hf : splitFrame a.abuf with
    | none => exact .orderViolation _ (drops_of_ready he.1 he.2.1)
    | some p => exact .afrm a p.1 p.2 he.1 he.2.1 ha he.2.2 hf

theorem moves_deliver (c : Collaborators Batch) (s : Channel.State Batch) (B : Bytes) :
    Moves c s (.deliver B) (s.command (.deliver B) (deliverEffect B)) := by
  refine moves_command fun he => ?_
  simp only [Channel.State.enabled, Bool.and_eq_true, St.ready_iff, Bool.not_eq_true'] at he
  unfold deliverEffect
  cases ha : s.asm with
  | none => exact .deliver B he.1 he.2.1 ha
  | some a => exact .deliverBuffer B a he.1 he.2.1 ha he.2.2

theorem moves_close (c : Collaborators Batch) (s : Channel.State Batch) :
    Moves c s .close (s.command .close closeEffect) := by
  refine moves_command fun he => ?_
  simp only [Channel.State.enabled, Bool.and_eq_true, Bool.or_eq_true, St.ready_iff,
    decide_eq_true_eq, Bool.not_eq_true', or_assoc] at he
  exact .close he.1 he.2.1 he.2.2

/-- Everything a command can do, in one lemma. -/
theorem after_moves (c : Collaborators Batch) (i : Instr) (s : Channel.State Batch) :
    Moves c s i (after c i s) := by
  cases i with
  | hdec => exact moves_hdec c s
  | pver => exact moves_pver c s
  | pdec => exact moves_pdec c s
  | xfrm => exact moves_xfrm c s
  | penc => exact moves_penc c s
  | hfin => exact moves_hfin c s
  | send => exact moves_send c s
  | afrm => exact moves_afrm c s
  | deliver B => exact moves_deliver c s B
  | close => exact moves_close c s
  | reset => exact moves_command fun he => .reset he

/-- The same for `exec`, from its answer. -/
theorem exec_moves {i : Instr} {s t : State} (h : exec i s = .next t) :
    Moves Config.collaborators s i t := by
  rw [exec_eq] at h
  obtain rfl := Host.Outcome.next.inj h
  exact after_moves _ i s

end Sys2Proof.Machine
end

