-- ==== Sys2Proof/Laws/PerInstr.lean ====
section
/-! SUPPORT. Facts about each command as syntax: its encoding has the length and the first byte
that spec/30_encoding.md R66 and R67 give it. -/

namespace Sys2Proof.Laws.EncodeSize

open Sys2Proof

/-- The bytes of a command: as many as R67 says, the command's code first (R66). -/
def Statement (i : Instr) : Prop :=
  (encode i).length = i.size ∧ (encode i).head? = some i.code

theorem hdec : Statement .hdec := ⟨rfl, rfl⟩
theorem pver : Statement .pver := ⟨rfl, rfl⟩
theorem pdec : Statement .pdec := ⟨rfl, rfl⟩
theorem xfrm : Statement .xfrm := ⟨rfl, rfl⟩
theorem penc : Statement .penc := ⟨rfl, rfl⟩
theorem hfin : Statement .hfin := ⟨rfl, rfl⟩
theorem send : Statement .send := ⟨rfl, rfl⟩
theorem afrm : Statement .afrm := ⟨rfl, rfl⟩

theorem deliver (bytes : Bytes) : Statement (.deliver bytes) := by
  refine ⟨?_, rfl⟩
  simp only [encode, Instr.size, List.length_cons, List.length_append, Machine.length_leBytes]
  omega

theorem close : Statement .close := ⟨rfl, rfl⟩
theorem reset : Statement .reset := ⟨rfl, rfl⟩

end Sys2Proof.Laws.EncodeSize
end

