-- ==== Sys2Proof/Tests/Slice0.lean ====
section
/-! SUPPORT. Tests: expected values are those of spec/95_test_vectors.md and of the tables of
spec/30_encoding.md; and for each obligation with hypotheses, a witness that meets them. -/

namespace Sys2Proof.Tests

open Sys2Proof Sys2Proof.Machine Sys2Proof.Safety

/-! ## The test configuration TC of spec/95_test_vectors.md -/

/-- The weighted byte sum of TC's two digests. -/
def weightedSum : Nat → Bytes → Nat
  | _, [] => 0
  | k, b :: bs => k * b.toNat + weightedSum (k + 1) bs

/-- TC's `encSeq`. -/
def encSeq (S : List Bytes) : Bytes :=
  leBytes 4 S.length ++ S.flatMap fun x => leBytes 4 x.length ++ x

/-- TC's reading of `n` items that must use up the bytes. -/
def readItems : Nat → Bytes → Option (List Bytes)
  | 0, [] => some []
  | 0, _ :: _ => none
  | n + 1, bs =>
    match memRead bs 0 4 with
    | none => none
    | some l =>
      match memRead bs 4 (leValue l) with
      | none => none
      | some x => (readItems n (bs.drop (4 + leValue l))).map fun r => x :: r

/-- TC, with `Batch` = `Bytes`. -/
def TC : Collaborators Bytes where
  digest32 b := BitVec.ofNat 32 (weightedSum 1 b)
  digest64 b := BitVec.ofNat 64 (weightedSum 1 b)
  pencode T := leBytes 4 T.length ++ T.flatMap encSeq
  pdecode P :=
    match memRead P 0 4 with
    | none => none
    | some n => readItems (leValue n) (P.drop 4)

/-- A codec that takes any payload as one batch; it has the property CODEC-NEST4. -/
def oneBatch : Collaborators Bytes where
  digest32 _ := 0
  digest64 _ := 0
  pencode T := [0, 0, 0, 0] ++ T.flatMap fun S => S.flatten
  pdecode P := some [P]

/-- The same machine with a codec that rejects every payload. -/
def noBatch : Collaborators Bytes :=
  { oneBatch with pdecode := fun _ => none }

/-! ## Small states and the spec's byte strings -/

/-- The header of V40-3. -/
def headerA : Header :=
  { version := 0, headerChecksum := 0xDEADBEEF, compression := 0, payloadLength := 10,
    metaWord := 0, correlationId := 7, payloadChecksum := 0x4E8 }

/-- The bytes of V40-3. -/
def headerBytesA : Bytes :=
  [0x00, 0xEF, 0xBE, 0xAD, 0xDE, 0x00, 0x0A, 0x00, 0x00, 0x00, 0x00, 0x00, 0x00, 0x00, 0x07, 0x00,
   0x00, 0x00, 0xE8, 0x04, 0x00, 0x00, 0x00, 0x00, 0x00, 0x00]

/-- The payload of frame A. -/
def payloadA : Bytes :=
  [0x01, 0x00, 0x00, 0x00, 0x02, 0x00, 0x00, 0x00, 0x41, 0x42]

/-- The inbound frame A. -/
def frameA : Bytes := headerBytesA ++ payloadA

/-- The outbound payload of V42-1. -/
def payloadOutA : Bytes :=
  [0x01, 0x00, 0x00, 0x00, 0x01, 0x00, 0x00, 0x00, 0x02, 0x00, 0x00, 0x00, 0x41, 0x42]

/-- The final header bytes of V41-8. -/
def headerOutA : Bytes :=
  [0x00, 0x6A, 0x01, 0x00, 0x00, 0x00, 0x0E, 0x00, 0x00, 0x00, 0x00, 0x00, 0x00, 0x00, 0x07, 0x00,
   0x00, 0x00, 0x01, 0x07, 0x00, 0x00, 0x00, 0x00, 0x00, 0x00]

/-- The header of V41-8, its checksum arbitrary. -/
def headerOut (v : BitVec 32) : Header :=
  { headerA with headerChecksum := v, payloadLength := 14, payloadChecksum := 0x701 }

/-- The frame of V42-2. -/
def frameEmpty : Bytes :=
  [0x01, 0x00, 0x00, 0x00, 0x00, 0x00, 0x04, 0x00, 0x00, 0x00, 0x44, 0x33, 0x22, 0x11, 0x04, 0x03,
   0x02, 0x01, 0x00, 0x00, 0x00, 0x00, 0x00, 0x00, 0x00, 0x00, 0x00, 0x00, 0x00, 0x00]

/-- What a step is asked about: the next state's fields. -/
def after {Batch α : Type} (o : Channel.Outcome Batch) (field : Channel.State Batch → α) :
    Option α :=
  match o with
  | .next s => some (field s)
  | .fault _ => none
  | .refused _ => none

/-- A channel in a state of the sequencer, for any record batches. -/
def channelIn {Batch : Type} (st : St) : Channel.State Batch :=
  { Channel.State.reset with st := st }

/-- The same with the machine's own record batches. -/
abbrev inSt (st : St) : State := channelIn st

/-- A channel with the assembler present, for any record batches. -/
def channelWith {Batch : Type} (st : St) (abuf : Bytes) : Channel.State Batch :=
  { channelIn st with asm := some ⟨readerState abuf, abuf⟩ }

/-- The same with the machine's own record batches. -/
abbrev withBuffer (st : St) (abuf : Bytes) : State := channelWith st abuf

/-! ## Encodings (R66, R67, R68) -/

theorem test_wellFormed_refuses_deliver :
    (Instr.deliver (List.replicate (2 ^ 32) 0)).wellFormed = false := by
  rw [Instr.wellFormed, List.length_replicate]
  decide

theorem test_wellFormed_longest_deliver :
    (Instr.deliver (List.replicate (2 ^ 32 - 1) 0)).wellFormed = true := by
  rw [Instr.wellFormed, List.length_replicate]
  decide

theorem test_wellFormed_others :
    [Instr.hdec, .pver, .pdec, .xfrm, .penc, .hfin, .send, .afrm, .close, .reset].all
      Instr.wellFormed = true := by decide

/-- The block-step codes of R66. -/
theorem test_decode_block_steps :
    decode [0x01] = .command .hdec [] ∧ decode [0x02] = .command .pver [] ∧
    decode [0x03] = .command .pdec [] ∧ decode [0x04] = .command .xfrm [] ∧
    decode [0x05] = .command .penc [] ∧ decode [0x06] = .command .hfin [] ∧
    decode [0x07] = .command .send [] ∧ decode [0x08] = .command .afrm [] := by decide

/-- The host-event codes of R66; DELIVER's length is little-endian (R67). -/
theorem test_decode_host_events :
    decode [0x11] = .command .close [] ∧ decode [0x12] = .command .reset [] ∧
    decode [0x10, 0x00, 0x00, 0x00, 0x00] = .command (.deliver []) [] ∧
    decode [0x10, 0x03, 0x00, 0x00, 0x00, 0x01, 0x02, 0x03, 0x07] =
      .command (.deliver [1, 2, 3]) [7] := by decide

/-- The codes R68 lists as illegal, at the ends of each range; and R67's truncated DELIVER, the last
that of V42-11. -/
theorem test_decode_rejects :
    [0x00, 0x09, 0x0F, 0x13, 0xFF].map (fun b : Byte => decode [b, 0x01]) =
        [0x00, 0x09, 0x0F, 0x13, 0xFF].map (fun b : Byte => .illegalCode b [0x01]) ∧
      decode [0x10] = .truncatedDeliver ∧ decode [0x10, 0x01, 0x00, 0x00] = .truncatedDeliver ∧
      decode [0x10, 0x24, 0x00, 0x00, 0x00, 0x00, 0xEF] = .truncatedDeliver ∧
      decode [] = .endOfStream := by decide

/-- DELIVER of frame A begins `10 24 00 00 00` (program 1). -/
theorem test_encode_deliver : (encode (.deliver frameA)).take 6 = [0x10, 0x24, 0, 0, 0, 0] := by
  decide

theorem test_decodeTableWord :
    [0x01, 0x02, 0x03, 0x04, 0x05, 0x06, 0x07, 0x08, 0x11, 0x12, 0x09].map (decodeTableWord 8) =
      [some .hdec, some .pver, some .pdec, some .xfrm, some .penc, some .hfin, some .send,
        some .afrm, some .close, some .reset, none] ∧
      decodeTableWord 40 0x10 = some (.deliver []) ∧
      decodeTableWord 48 0xAB0000000210 = some (.deliver [0xAB, 0x00]) := by decide

/-- `le_32` and `rd_le` (R8), on the length field of V40-3. -/
theorem test_byte_order :
    leBytes 4 0xDEADBEEF = [0xEF, 0xBE, 0xAD, 0xDE] ∧ rdLe headerBytesA 6 4 = 10 := by decide

/-- The seven fields of R62 fill the 26 bytes, each byte in one of them (R44). -/
theorem test_layout_partition :
    (Config.hdrLayout.flatMap fun f => List.range' f.off f.width) = List.range 26 := by decide

/-- The codes of R22 and R170 are all different. -/
theorem test_codes :
    ([St.idle, .received, .headerDecoded, .payloadVerified, .payloadDecoded, .transformed,
        .payloadEncoded, .headerFinalized, .sent, .failed, .closed].map St.code).Nodup ∧
      ([FaultCode.none, .shortReadHeader, .shortReadPayload, .integrityFailure, .codecFailure,
        .lengthOverflow, .orderViolation, .illegalCommand].map fun x => x.code.toNat) =
        List.range 8 := by decide

/-- A line of text as R69 writes it, with a comment; braces may stand around an operand. -/
theorem test_assemble :
    assembleLine "PDEC          ; the payload is not verified yet".toList = some [.pdec] ∧
      assembleLine ("XCHG ".toList ++ [openBrace] ++ "00 EF".toList ++ [closeBrace]) =
        some [.deliver [0x00, 0xEF], .hdec, .pver, .pdec, .xfrm, .penc, .hfin, .send] ∧
      assembleLine "HDEC 00".toList = none := by decide

/-! ## Header codec and bootstrap (V40, V41) -/

/-- V40-1. -/
theorem test_decodeHeader :
    decodeHeader ((List.range 26).map (BitVec.ofNat 8)) =
      some
        { version := 0x00, headerChecksum := 0x04030201, compression := 0x05
          payloadLength := 0x09080706, metaWord := 0x0D0C0B0A, correlationId := 0x11100F0E
          payloadChecksum := 0x1918171615141312 } := by decide

/-- V40-3. -/
theorem test_encodeHeader : (encodeHeader headerA).toList = headerBytesA := by decide

/-- V41-1, V41-2, V41-3, V41-6. -/
theorem test_verifyPayload :
    verifyPayload TC (List.replicate 10 0) 1 = false ∧ verifyPayload TC payloadA 0x4E8 = true ∧
      verifyPayload TC (payloadA.set 8 0x40) 0x4E8 = false ∧ verifyPayload TC [] 0 = true ∧
      verifyPayload TC [] 1 = false := by decide

/-- V41-8, V41-9. -/
theorem test_bootHeader :
    (bootHeader TC (headerOut 0xDEADBEEF)).final.toList = headerOutA ∧
      (bootHeader TC (headerOut 0xDEADBEEF)).header = headerOut 0x16A := by decide

/-! ## The commands, one step each -/

/-- V42-1, HDEC. -/
theorem test_hdec :
    after (exec .hdec { inSt .received with rx := some frameA }) (fun s => (s.st, s.hdr)) =
      some (.headerDecoded, some headerA) := by decide

/-- V40-4: 25 bytes. -/
theorem test_hdec_short :
    after (exec .hdec { inSt .received with rx := some (headerBytesA.take 25) })
      (fun s => (s.st, s.err, s.hdr, s.out)) =
      some (.failed, .shortReadHeader, none, [.obsConnect, .fault 0x01]) := by decide

/-- V42-1, PVER. -/
theorem test_pver :
    after (pverUnder TC { channelIn .headerDecoded with rx := some frameA, hdr := some headerA })
      (fun s => (s.st, s.pin)) = some (.payloadVerified, some payloadA) := by decide

/-- V42-5: the payload one byte short. -/
theorem test_pver_short :
    after (exec .pver
        { inSt .headerDecoded with rx := some (frameA.take 35), hdr := some headerA })
      (fun s => (s.st, s.err, s.pin)) = some (.failed, .shortReadPayload, none) := by decide

/-- V42-1, PDEC: one batch `AB`. -/
theorem test_pdec :
    after (pdecUnder TC { channelIn .payloadVerified with pin := some payloadA })
      (fun s => (s.st, s.sdec)) = some (.payloadDecoded, some [[0x41, 0x42]]) := by decide

/-- V42-6: a payload the codec rejects. -/
theorem test_pdec_rejected :
    after (pdecUnder TC { channelIn .payloadVerified with pin := some [1, 2, 3] })
      (fun s => (s.st, s.err, s.sdec.isNone, s.out)) =
      some (.failed, .codecFailure, true, [.obsConnect, .fault 0x04]) := by decide

/-- V42-2: no batch nests to one empty sequence. -/
theorem test_xfrm :
    after (exec .xfrm { inSt .payloadDecoded with sdec := some [] }) (fun s => (s.st, s.tseq)) =
      some (.transformed, some [[]]) := by decide

/-- V42-3: two batches stay together. -/
theorem test_xfrm_two :
    after (execUnder TC .xfrm { channelIn .payloadDecoded with sdec := some [[1], [2, 3]] })
      (fun s => s.tseq) = some (some [[[1], [2, 3]]]) := by decide

/-- V42-1, PENC. -/
theorem test_penc :
    after (pencUnder TC { channelIn .transformed with tseq := some [[[0x41, 0x42]]] })
      (fun s => (s.st, s.pout)) = some (.payloadEncoded, some payloadOutA) := by decide

/-- V42-1, HFIN. -/
theorem test_hfin :
    after (hfinUnder TC
        { channelIn .payloadEncoded with hdr := some headerA, pout := some payloadOutA })
      (fun s => (s.st, s.hdr, s.hbytes.map Bytes26.toList)) =
      some (.headerFinalized, some (headerOut 0x16A), some headerOutA) := by decide

/-- V42-9: the greatest length that overflows least. -/
theorem test_hfin_overflow :
    after (hfinUnder TC
        { channelIn .payloadEncoded with
          hdr := some { headerA with payloadLength := 0xFFFFFFFC }, pout := some [] })
      (fun s => (s.st, s.err, s.hbytes)) = some (.failed, .lengthOverflow, none) := by decide

/-- V42-1, SEND: one event of 40 bytes. -/
theorem test_send :
    after (exec .send
        { inSt .headerFinalized with
          hbytes := some ⟨headerOutA, by decide⟩, pout := some payloadOutA })
      (fun s => (s.st, s.out)) =
      some (.sent, [.obsConnect, .tx (headerOutA ++ payloadOutA)]) := by decide

/-- V42-A6: AFRM takes A out of A ++ A. -/
theorem test_afrm :
    after (exec .afrm (withBuffer .idle (frameA ++ frameA))) (fun s => (s.st, s.rx, s.asm)) =
      some (.received, some frameA, some ⟨.frameReady, frameA⟩) := by decide

/-- V42-11: AFRM with the assembler absent. -/
theorem test_afrm_absent :
    after (exec .afrm State.reset) (fun s => (s.st, s.err)) = some (.failed, .illegalCommand) := by
  decide

/-- Program 3: a DELIVER in Sent clears the registers of the exchange before. -/
theorem test_deliver :
    after (exec (.deliver frameA) { inSt .sent with rx := some [1], pout := some [2] })
      (fun s => (s.st, s.rx, s.pout)) = some (.received, some frameA, none) := by decide

/-- Program 5: the first 20 bytes of A wait in the assembler. -/
theorem test_deliver_assembler :
    after (exec (.deliver (frameA.take 20)) (withBuffer .idle [])) (fun s => (s.st, s.rx, s.asm)) =
      some (.idle, none, some ⟨.wantHeader, frameA.take 20⟩) := by decide

/-- V42-12: CLOSE after a fault keeps `err`. -/
theorem test_close :
    after (exec .close { inSt .failed with err := .shortReadPayload, rx := some [1] })
      (fun s => (s.st, s.err, s.rx, s.out)) =
      some
        (.closed, .shortReadPayload, none,
          [.obsConnect, .notifyDisconnect, .obsDisconnect]) := by decide

/-- V42-A7: CLOSE discards what the assembler holds. -/
theorem test_close_assembler :
    after (exec .close (withBuffer .idle (frameA.take 35))) (fun s => (s.st, s.asm)) =
      some (.closed, some ⟨.wantHeader, []⟩) := by decide

/-- V42-13: RESET from Failed. -/
theorem test_reset :
    after (exec .reset { inSt .failed with err := .shortReadPayload, hdr := some headerA })
      (fun s => (s.st, s.err, s.hdr, s.out)) =
      some (.idle, .none, none, [.obsConnect, .obsConnect]) := by decide

/-- V42-A1 to V42-A6. -/
theorem test_readerState :
    [0, 20, 26, 35, 36].map (fun n => readerState (frameA.take n)) =
      [.wantHeader, .wantHeader, .wantPayload 10, .wantPayload 10, .frameReady] := by decide

/-- V42-10: PDEC in HeaderDecoded. -/
theorem test_order_violation :
    after (exec .pdec { inSt .headerDecoded with hdr := some headerA }) (fun s => (s.st, s.err)) =
      some (.failed, .orderViolation) := by decide

/-- V42-11: an illegal code, taken from the stream. -/
theorem test_illegal_code :
    after (step { State.reset with cmds := [0x09, 0x01] }) (fun s => (s.st, s.err, s.cmds)) =
      some (.failed, .illegalCommand, [0x01]) := by decide

/-- V42-12: the same code in Failed. -/
theorem test_illegal_code_dropped :
    after (step { inSt .failed with err := .shortReadPayload, cmds := [0x09] })
      (fun s => (s.st, s.err, s.out)) = some (.failed, .shortReadPayload, [.obsConnect]) := by
  decide

/-- With no command waiting the block takes its own step (R20, R152). -/
theorem test_own_step :
    after (step { inSt .received with rx := some frameA, hostq := [.close] })
      (fun s => (s.st, s.hostq)) = some (.headerDecoded, [.close]) := by decide

theorem test_withFetchWord :
    after (step (State.reset.withFetchWord 8 0x10)) (fun s => (s.st, s.rx, s.cmds)) =
      some (.received, some [], []) := by decide

/-! ## Witnesses: each obligation's hypotheses are met -/

theorem witness_ResetStartsChannel :
    (Channel.State.uncreated none : State).created = false ∧
      ∀ st ∈ [St.idle, .sent, .failed, .closed],
        (inSt st).created = true ∧
          ((inSt st).st = .idle ∨ (inSt st).st = .sent ∨ (inSt st).st = .failed ∨
            (inSt st).st = .closed) ∧ ¬ ChannelBusy (inSt st) := by
  simp [Channel.State.uncreated, channelIn, Channel.State.reset, ChannelBusy]

/-- Deliveries of 26 and of 25 bytes. -/
theorem witness_HdecDecodesHeader (n : Nat) (_ : n = 26 ∨ n = 25) :
    ∃ (s : State) (B : Bytes), s.created = true ∧ s.st = .received ∧ s.rx = some B ∧ B.length = n :=
  ⟨{ inSt .received with rx := some (List.replicate n 0) }, List.replicate n 0, rfl, rfl, rfl,
    by simp⟩

/-- A delivery one byte short of its payload. -/
theorem witness_PverVerifiesPayload_short :
    ∃ (s : State) (B : Bytes) (h : Header),
      s.created = true ∧ s.st = .headerDecoded ∧ s.rx = some B ∧ s.hdr = some h ∧
      B.length + 1 = 26 + h.payloadLength.toNat :=
  ⟨{ inSt .headerDecoded with rx := some (frameA.take 35), hdr := some headerA }, frameA.take 35,
    headerA, rfl, rfl, rfl, rfl, by decide⟩

/-- A delivery of exactly its payload, the claimed digest right (`d = 0`) or wrong (`d = 1`). -/
theorem witness_PverVerifiesPayload_whole (d : BitVec 64) :
    ∃ (s : State) (B : Bytes) (h : Header),
      s.created = true ∧ s.st = .headerDecoded ∧ s.rx = some B ∧ s.hdr = some h ∧
      B.length = 26 + h.payloadLength.toNat ∧
      Config.digest64 ((B.drop 26).take h.payloadLength.toNat) + d = h.payloadChecksum :=
  ⟨{ inSt .headerDecoded with
      rx := some frameA
      hdr := some { headerA with payloadChecksum := Config.digest64 payloadA + d } }, frameA,
    { headerA with payloadChecksum := Config.digest64 payloadA + d }, rfl, rfl, rfl, rfl,
    rfl, rfl⟩

/-- `d = 1` of the witness before is a wrong digest. -/
theorem witness_PverVerifiesPayload_wrong (x h : BitVec 64) (e : x + 1 = h) : x ≠ h := by
  subst e
  bv_omega

theorem witness_PdecFollowsCodec :
    ∃ (s : State) (P : Bytes), s.created = true ∧ s.st = .payloadVerified ∧ s.pin = some P :=
  ⟨{ inSt .payloadVerified with pin := some payloadA }, payloadA, rfl, rfl, rfl⟩

/-- A payload the codec accepts, and one it rejects. -/
theorem witness_PdecUnderEveryCodec :
    TC.pdecode payloadA = some [[0x41, 0x42]] ∧ TC.pdecode [1, 2, 3] = none ∧
      ∀ P, ∃ s : Channel.State Bytes, s.created = true ∧ s.st = .payloadVerified ∧ s.pin = some P :=
  ⟨by decide, by decide, fun P =>
    ⟨{ channelIn .payloadVerified with pin := some P }, rfl, rfl, rfl⟩⟩

/-- On the machine, where nothing is known of its batches, and with two batches under TC. -/
theorem witness_XfrmNestsSequence :
    (∃ (s : State) (S : List Config.Batch),
      s.created = true ∧ s.st = .payloadDecoded ∧ s.sdec = some S) ∧
      ∃ s : Channel.State Bytes,
        s.created = true ∧ s.st = .payloadDecoded ∧ s.sdec = some [[1], [2, 3]] :=
  ⟨⟨{ inSt .payloadDecoded with sdec := some [] }, [], rfl, rfl, rfl⟩,
    { channelIn .payloadDecoded with sdec := some [[1], [2, 3]] }, rfl, rfl, rfl⟩

theorem witness_PencEncodesSequence :
    (∃ (s : State) (T : List (List Config.Batch)),
      s.created = true ∧ s.st = .transformed ∧ s.tseq = some T) ∧
      ∃ s : Channel.State Bytes,
        s.created = true ∧ s.st = .transformed ∧ s.tseq = some [[[1], [2, 3]]] :=
  ⟨⟨{ inSt .transformed with tseq := some [[]] }, [[]], rfl, rfl, rfl⟩,
    { channelIn .transformed with tseq := some [[[1], [2, 3]]] }, rfl, rfl, rfl⟩

/-- V42-9's two lengths: the least that overflows and the greatest that does not. -/
theorem witness_HfinFinalizesHeader (n : BitVec 32) (_ : n = 0xFFFFFFFC ∨ n = 0xFFFFFFFB) :
    ∃ (s : State) (h : Header) (Q : Bytes),
      s.created = true ∧ s.st = .payloadEncoded ∧ s.hdr = some h ∧ s.pout = some Q ∧
      h.payloadLength = n :=
  ⟨{ inSt .payloadEncoded with hdr := some { headerA with payloadLength := n }, pout := some [] },
    { headerA with payloadLength := n }, [], rfl, rfl, rfl, rfl, rfl⟩

theorem witness_SendEmitsWholeFrame :
    ∃ (s : State) (H : Bytes26) (Q : Bytes),
      s.created = true ∧ s.st = .headerFinalized ∧ s.hbytes = some H ∧ s.pout = some Q :=
  ⟨{ inSt .headerFinalized with hbytes := some (encodeHeader headerA), pout := some [] },
    encodeHeader headerA, [], rfl, rfl, rfl, rfl⟩

theorem witness_UnwrittenRegisterFaults (st : St) :
    (inSt st).created = true ∧ (inSt st).st = st ∧ registers (inSt st) = {} := ⟨rfl, rfl, rfl⟩

theorem witness_DeliverStartsExchange (st : St) (_ : st = .idle ∨ st = .sent) :
    (inSt st).created = true ∧ (inSt st).st = st ∧ (inSt st).asm = none := ⟨rfl, rfl, rfl⟩

theorem witness_DeliverFeedsAssembler :
    ∃ (s : State) (a : Assembler),
      s.created = true ∧ s.st = .idle ∧ s.asm = some a ∧ a.amode ≠ .frameReady ∧
      a.amode = readerState a.abuf :=
  ⟨withBuffer .idle (frameA.take 35), ⟨.wantPayload 10, frameA.take 35⟩, rfl, rfl, by decide,
    by decide, by decide⟩

/-- A buffer of exactly one frame. -/
theorem witness_AfrmHandsOnFrame :
    ∃ (s : State) (a : Assembler),
      s.created = true ∧ s.st = .idle ∧ s.asm = some a ∧ a.amode = .frameReady ∧
      26 + rdLe a.abuf 6 4 = a.abuf.length :=
  ⟨withBuffer .idle frameA, ⟨.frameReady, frameA⟩, rfl, rfl, by decide, rfl, by decide⟩

theorem witness_AfrmHandsOnFrame_absent : State.reset.asm = none := rfl

theorem witness_CloseDisconnects :
    ∀ st ∈ [St.idle, .sent, .failed],
      (inSt st).created = true ∧
        ((inSt st).st = .idle ∨ (inSt st).st = .sent ∨ (inSt st).st = .failed) ∧
        ¬ ChannelBusy (inSt st) := by
  simp [channelIn, Channel.State.reset, ChannelBusy]

/-- A command out of order in a state that faults and in the two that drop; AFRM with an assembler
that has no frame. -/
theorem witness_CommandNotEnabled :
    (∀ st ∈ [St.idle, .failed, .closed],
      (inSt st).created = true ∧ ¬ Precondition (inSt st) .hdec) ∧
      (withBuffer .idle []).created = true ∧ ¬ Precondition (withBuffer .idle []) .afrm ∧
      (withBuffer .idle []).asm ≠ none := by
  simp [channelWith, channelIn, Channel.State.reset, Precondition, readerState, decodeHeader,
    memRead]

theorem witness_NothingBeforeFirstReset :
    (Channel.State.uncreated none : State).created = false ∧ Instr.close ≠ .reset := by decide

/-- Inside an exchange, and in Idle with a frame waiting. -/
theorem witness_HostEventWhileBusyFaults :
    ((inSt .received).created = true ∧ ChannelBusy (inSt .received)) ∧
      (withBuffer .idle frameA).created = true ∧ ChannelBusy (withBuffer .idle frameA) := by
  refine ⟨⟨rfl, .inl rfl⟩, rfl, ?_⟩
  right; right; right; right; right; right; right
  exact ⟨.inl rfl, ⟨.frameReady, frameA⟩, by decide, rfl⟩

/-- The codes at the ends of R68's ranges. -/
theorem witness_IllegalCodeFaults :
    ∀ b ∈ [(0x00 : Byte), 0x09, 0x0F, 0x13, 0xFF],
      { State.reset with cmds := [b] }.cmds = b :: [] ∧
        (b.toNat = 0 ∨ 0x09 ≤ b.toNat ∧ b.toNat ≤ 0x0F ∨ 0x13 ≤ b.toNat) := by decide

/-- A stream that ends in the length, and one that ends one byte before its operand does. -/
theorem witness_TruncatedDeliverFaults :
    [0, 0, 0].length < 4 ∧ [1, 0, 0, 0].length + 1 = 4 + rdLe [1, 0, 0, 0] 0 4 := by decide

theorem witness_DecodeAfterEncode :
    (Instr.deliver (List.replicate (2 ^ 32 - 1) 0)).wellFormed = true ∧
      Instr.hdec.wellFormed = true :=
  ⟨test_wellFormed_longest_deliver, rfl⟩

theorem witness_EncodeAfterDecode :
    decode [0x10, 0x01, 0x00, 0x00, 0x00, 0xAA, 0x11] = .command (.deliver [0xAA]) [0x11] := by
  decide

theorem witness_StepRunsDecodedCommand :
    decode { State.reset with cmds := [0x10, 0, 0, 0, 0, 0x01] }.cmds =
      .command (.deliver []) [0x01] := by decide

/-- The three cases: a block step; a host event behind one that must wait; nothing to do. -/
theorem witness_StepWithoutCommands :
    ((inSt .received).cmds = [] ∧ Instr.hdec ∈ blockSteps ∧ (inSt .received).created = true ∧
        Precondition (inSt .received) .hdec) ∧
      (∃ s : State, s.cmds = [] ∧ ¬ ChannelBusy s ∧
        s.hostq = [.close] ++ HostEvent.reset :: [.close] ∧
        (∀ x ∈ [HostEvent.close], s.enabled x.instr = false) ∧
        s.enabled HostEvent.reset.instr = true) ∧
      State.reset.cmds = [] ∧ ¬ ChannelBusy State.reset ∧
        ∀ x ∈ State.reset.hostq, State.reset.enabled x.instr = false := by
  refine ⟨⟨rfl, by decide, rfl, rfl⟩,
    ⟨{ inSt .closed with hostq := [.close, .reset, .close] }, rfl, ?_, rfl, by decide, by decide⟩,
    rfl, ?_, by decide⟩ <;> simp [ChannelBusy, channelIn, State.reset, Channel.State.reset]

theorem witness_OneBlockStepWhenBusy :
    (inSt .received).created = true ∧ ChannelBusy (inSt .received) ∧
      ¬ ChannelBusy State.reset ∧ Instr.hdec ∈ blockSteps ∧
      Precondition (inSt .received) .hdec := by
  refine ⟨rfl, .inl rfl, ?_, by decide, rfl⟩
  simp [ChannelBusy, State.reset, Channel.State.reset]

theorem witness_StreamRunsAsCommandList :
    ∀ i ∈ Instr.xchg frameA ++ [.close], i.wellFormed = true := by decide

/-- The last field of a header; the greatest value of one byte. -/
theorem witness_LittleEndianSum : 18 + 8 ≤ headerBytesA.length ∧ 255 < 2 ^ (8 * 1) := by decide

theorem witness_HeaderEncodeAfterDecode : 26 ≤ headerBytesA.length := by decide

theorem witness_ByteCompareFormAgrees : decodeHeader headerBytesA = some headerA := by decide

/-- A step that reads no collaborator, for the statements about a next state. -/
theorem witness_RegistersHaveTheirWriters :
    exec .xfrm { inSt .payloadDecoded with sdec := some [] } =
      .next { inSt .transformed with sdec := some [], tseq := some [[]] } := rfl

theorem witness_SequencerMoves :
    exec .xfrm { inSt .payloadDecoded with sdec := some [] } =
        .next { inSt .transformed with sdec := some [], tseq := some [[]] } ∧
      { inSt .payloadDecoded with sdec := some [] }.created = true := ⟨rfl, rfl⟩

/-- A dropped DELIVER, and CLOSE, after a fault. -/
theorem witness_FirstFaultIsKept :
    let s : State := { inSt .failed with err := .codecFailure }
    FaultLatched s ∧ s.err ≠ .none ∧ s.created = true ∧ exec (.deliver [1]) s = .next s ∧
      ∃ t, exec .close s = .next t ∧ t.st = .closed := by
  refine ⟨?_, by decide, rfl, rfl, _, rfl, rfl⟩
  simp [FaultLatched, channelIn]

theorem witness_OpaqueFieldsPassThrough :
    let s : State := { inSt .payloadEncoded with hdr := some headerA, pout := some [] }
    s.hdr = some headerA ∧ Instr.hfin ≠ .hdec ∧ ∃ t, exec .hfin s = .next t :=
  ⟨rfl, by decide, _, rfl⟩

/-- Two codecs that differ, and a state about to hand a verified payload to them; here they are made
to agree on that payload only. -/
theorem witness_OnlyVerifiedPayloadReachesCodec :
    ∃ (c c' : Collaborators Bytes) (s : Channel.State Bytes),
      c'.digest32 = c.digest32 ∧ c'.digest64 = c.digest64 ∧ c'.pencode = c.pencode ∧
      (∀ B h P, s.rx = some B → s.hdr = some h → Verified c B h P → c'.pdecode P = c.pdecode P) ∧
      Inv c s ∧ c.pdecode [1] ≠ c'.pdecode [1] ∧ s.st = .payloadVerified := by
  let B := (encodeHeader { headerA with payloadLength := 0, payloadChecksum := 0 }).toList
  let h : Header := { headerA with payloadLength := 0, payloadChecksum := 0 }
  have hB : decodeHeader B = some h := by decide
  refine ⟨oneBatch, { oneBatch with pdecode := fun P => if P = [] then some [[]] else none },
    { channelIn .payloadVerified with rx := some B, hdr := some h, pin := some [] },
    rfl, rfl, rfl, ?_, ⟨?_, ?_, ?_, ?_, ?_⟩, by decide, rfl⟩
  · rintro _ _ P rfl' hh ⟨_, hP, _⟩
    cases hh
    obtain rfl : P = [] := by
      have := ((memRead_eq_some_iff).1 hP).2
      simpa [h] using this
    rfl
  · exact ⟨B, h, [], ⟨hB, by decide, rfl⟩, rfl⟩
  · simp [FaultLatched, channelIn, Channel.State.reset]
  · simp [ReaderCoherent, channelIn, Channel.State.reset]
  · simp [BlankBeforeReset, channelIn, Channel.State.reset]
  · simp [ClosedIsEmpty, channelIn, Channel.State.reset]

/-- A delivery whose payload's digest 0 is not the claimed one. -/
theorem witness_FailedCheckNeverReachesCodec :
    noBatch.digest32 = oneBatch.digest32 ∧ noBatch.digest64 = oneBatch.digest64 ∧
      noBatch.pencode = oneBatch.pencode ∧ (channelIn (Batch := Bytes) .idle).created = true ∧
      (channelIn (Batch := Bytes) .idle).st = .idle ∧
      (channelIn (Batch := Bytes) .idle).asm = none ∧ decodeHeader frameA = some headerA ∧
      oneBatch.digest64 ((frameA.drop 26).take headerA.payloadLength.toNat) ≠
        headerA.payloadChecksum :=
  ⟨rfl, rfl, rfl, rfl, rfl, rfl, by decide, by decide⟩

/-- A channel with the assembler present that has just been handed a frame. -/
theorem inv_handed_frame {Batch : Type} (c : Collaborators Batch) :
    Inv c { channelWith .received [] with rx := some frameA } := by
  refine ⟨⟨frameA, fun _ => by decide, rfl⟩, ?_, ?_, ?_, ?_⟩
  · simp [FaultLatched, channelWith, channelIn, Channel.State.reset]
  · intro a ha
    obtain rfl : a = ⟨readerState [], []⟩ := by simpa [channelWith] using ha.symm
    rfl
  · simp [BlankBeforeReset, channelWith, channelIn, Channel.State.reset]
  · simp [ClosedIsEmpty, channelWith, channelIn]

theorem witness_AssemblerNeverShortReads :
    let s : State := { withBuffer .received [] with rx := some frameA }
    Inv Config.collaborators s ∧ s.asm.isSome = true ∧ ∃ t, exec .hdec s = .next t :=
  ⟨inv_handed_frame _, rfl, _, rfl⟩

/-- Frame A in pieces of 20 and 16 bytes. -/
theorem witness_SplitDeliveryIsOneDelivery :
    let s : State := withBuffer .idle []
    ∃ a t, s.asm = some a ∧ readerState (a.abuf ++ frameA.take 20) ≠ .frameReady ∧
      s.created = true ∧ s.st = .idle ∧ a.amode ≠ .frameReady ∧
      exec (.deliver (frameA.take 20)) s = .next t :=
  ⟨⟨.wantHeader, []⟩, _, rfl, by decide, rfl, rfl, by decide, rfl⟩

theorem witness_ChannelsAreIndependent :
    (0 : Nat) ≠ 1 ∧ ∃ after, stepChannel [State.reset, State.reset] 1 = .next after :=
  ⟨by decide, _, rfl⟩

/-- The four ends of a run: clean, faulted, pending, and Closed after a fault. -/
theorem witness_EndOfRunIsClassified :
    ∀ s ∈ [State.reset, { inSt .failed with err := .codecFailure },
        withBuffer .idle (frameA.take 35), { inSt .closed with err := .codecFailure }],
      Inv Config.collaborators s ∧ s.created = true ∧ RunEnded s := by
  simp only [List.forall_mem_cons, List.not_mem_nil, false_implies, implies_true, and_true]
  refine ⟨?_, ?_, ?_, ?_⟩ <;>
    refine ⟨⟨?_, ?_, ?_, ?_, ?_⟩, rfl, by decide, rfl, by decide⟩ <;>
    first
    | rfl
    | trivial
    | simp [ReaderCoherent, BlankBeforeReset, ClosedIsEmpty, channelWith, channelIn,
        State.reset, Channel.State.reset]

/-- V42-1 as one exchange. -/
theorem witness_SuccessfulExchangeProperties :
    exchange TC frameA = .frame (headerOutA ++ payloadOutA) ∧
      decodeHeader frameA = some headerA := by decide

/-- The failing ends of EXCHANGE, in the order of R146: V40-4, V42-5, V42-8, V42-6. -/
theorem test_exchange_faults :
    exchange TC (frameA.take 25) = .fault .shortReadHeader ∧
      exchange TC (frameA.take 35) = .fault .shortReadPayload ∧
      exchange TC (frameA.set 34 0x40) = .fault .integrityFailure ∧
      exchange TC ((headerBytesA.set 6 0).set 18 0 |>.set 19 0) = .fault .codecFailure := by decide

/-- V42-2 as one exchange. -/
theorem test_exchange_empty :
    exchange TC frameEmpty =
      .frame
        [0x01, 0xE4, 0x08, 0x00, 0x00, 0x00, 0x08, 0x00, 0x00, 0x00, 0x44, 0x33, 0x22, 0x11, 0x04,
         0x03, 0x02, 0x01, 0x01, 0x00, 0x00, 0x00, 0x00, 0x00, 0x00, 0x00, 0x01, 0x00, 0x00, 0x00,
         0x00, 0x00, 0x00, 0x00] := by decide

theorem witness_ExchangeMatchesSpecFunction (st : St) (_ : st = .idle ∨ st = .sent) :
    ∃ s : Channel.State Bytes, s.created = true ∧ s.st = st ∧ s.asm = none :=
  ⟨channelIn st, rfl, rfl, rfl⟩

/-- A buffer of two frames A (V42-A6), in Idle and in Sent. -/
theorem witness_AssembledExchangeMatchesSpecFunction (st : St) (_ : st = .idle ∨ st = .sent) :
    ∃ (s : Channel.State Bytes) (a : Assembler),
      s.created = true ∧ s.st = st ∧ s.asm = some a ∧ a.amode = .frameReady ∧
      splitFrame a.abuf = some (frameA, frameA) :=
  ⟨channelWith st (frameA ++ frameA), ⟨readerState (frameA ++ frameA), frameA ++ frameA⟩,
    rfl, rfl, rfl, by decide, by decide⟩

theorem witness_Nest4FramesAreWellFormed :
    oneBatch.Nest4 ∧ ∃ F, exchange oneBatch (List.replicate 26 0) = .frame F := by
  refine ⟨?_, _, rfl⟩
  intro P S h
  obtain rfl : [P] = S := by simpa [oneBatch] using h
  simp [oneBatch]

/-- A delivery of five bytes, whose check HDEC fails. -/
theorem witness_InboundHeaderChecksumIgnored :
    ∃ (s t t' : Channel.State Bytes) (B q : Bytes),
      s.created = true ∧ s.st = .idle ∧ s.asm = none ∧
      5 ≤ B.length ∧ q.length = 4 ∧ runCommands TC (Instr.xchg B) s = .next t ∧
      runCommands TC (Instr.xchg (B.take 1 ++ q ++ B.drop 5)) s = .next t' :=
  ⟨Channel.State.reset, _, _, [0, 1, 2, 3, 4], [9, 9, 9, 9], rfl, rfl, rfl, by decide,
    by decide, rfl, rfl⟩

theorem witness_EveryStepKeepsInvariant :
    let s : State := { withBuffer .received [] with rx := some frameA }
    Inv Config.collaborators s ∧ ∃ t, step s = .next t ∧ t.st = .headerDecoded :=
  ⟨inv_handed_frame _, _, rfl, rfl⟩

/-- The header of V40-3 with any checksum is read back from its bytes. -/
theorem decode_headerA (v : BitVec 32) :
    decodeHeader (encodeHeader (withHC headerA v)).toList = some (withHC headerA v) := by
  have hb : (encodeHeader (withHC headerA v)).toList =
      [0x00] ++ (leBytes 4 v.toNat ++ headerBytesA.drop 5) := by
    have rest : leBytes 1 headerA.compression.toNat ++ (leBytes 4 headerA.payloadLength.toNat ++
        (leBytes 4 headerA.metaWord.toNat ++ (leBytes 4 headerA.correlationId.toNat ++
          leBytes 8 headerA.payloadChecksum.toNat))) = headerBytesA.drop 5 := by decide
    rw [← rest]
    exact headerBytes_eq _
  have hv : leValue (leBytes 4 v.toNat) = v.toNat := by
    rw [leValue_leBytes]
    exact Nat.mod_eq_of_lt v.isLt
  rw [decodeHeader_of_le (by rw [(encodeHeader _).size_eq]), hb]
  generalize hl : leBytes 4 v.toNat = l at hv
  obtain ⟨a, b, c, d, rfl⟩ : ∃ a b c d, l = [a, b, c, d] := ⟨_, _, _, _, hl.symm⟩
  have hr : rdLe ([0x00] ++ ([a, b, c, d] ++ headerBytesA.drop 5)) 1 4 = v.toNat := hv
  rw [hr, BitVec.ofNat_toNat, BitVec.setWidth_eq]
  rfl

/-- A history that holds one certified frame. -/
theorem witness_EverySentFrameIsCertified :
    let F := (bootHeader Config.collaborators headerA).final.toList
    let s : State :=
      { withBuffer .received [] with rx := some frameA, out := [.obsConnect, .tx F] }
    Inv Config.collaborators s ∧ SentCertified Config.collaborators s ∧
      ∃ t, step s = .next t := by
  refine ⟨?_, ?_, _, rfl⟩
  · obtain ⟨h1, h2, h3, h4, h5⟩ := inv_handed_frame Config.collaborators
    exact ⟨h1, h2, h3, fun h => by simp [channelWith, channelIn, Channel.State.reset] at h, h5⟩
  · intro F hF
    obtain rfl : F = (bootHeader Config.collaborators headerA).final.toList := by simpa using hF
    exact ⟨_, decode_headerA _, rfl⟩

theorem witness_ExchangeEndsWithinSevenSteps :
    (inSt .received).created = true ∧ (inSt .received).st.busy = true ∧
      (inSt .received).cmds = [] := ⟨rfl, rfl, rfl⟩

end Sys2Proof.Tests
end

section
/-! Scope (spec/00_scope.md): the byte order of R8, and that `exec` and `step` are the machine of R5
and R6 at the hardware's own collaborators. -/

namespace Sys2Proof.Machine

/-- The bytes read least significant first are the digits of a sum in powers of `2 ^ 8` (R8). -/
theorem leValue_eq_sum (bs : Bytes) :
    leValue bs = ∑ k ∈ Finset.range bs.length, (bs.getD k 0).toNat * 2 ^ (8 * k) := by
  induction bs with
  | nil => rfl
  | cons b bs ih =>
    have shift (k : Nat) : 2 ^ (8 * (k + 1)) = 256 * 2 ^ (8 * k) := by ring
    rw [List.length_cons, Finset.sum_range_succ', leValue_cons, ih, Finset.mul_sum, add_comm]
    simp [shift, Nat.mul_left_comm]

/-- The bytes of a field inside a buffer are the buffer's, counted from the field's offset. -/
theorem getD_take_drop (B : Bytes) (off : Nat) {n k : Nat} (hk : k < n) :
    ((B.drop off).take n).getD k 0 = B.getD (off + k) 0 := by
  simp [List.getD_eq_getElem?_getD, hk]

theorem rdLe_eq_sum {B : Bytes} {off n : Nat} (h : off + n ≤ B.length) :
    rdLe B off n = ∑ k ∈ Finset.range n, (B.getD (off + k) 0).toNat * 2 ^ (8 * k) := by
  have hlen : ((B.drop off).take n).length = n := by
    rw [List.length_take, List.length_drop]
    omega
  rw [rdLe, leValue_eq_sum, hlen]
  refine Finset.sum_congr rfl fun k hk => ?_
  rw [getD_take_drop B off (Finset.mem_range.1 hk)]

/-- Reading back the `n` bytes of `le_{8n}(v)` gives `v` modulo their width. -/
theorem rdLe_leBytes (n v : Nat) : rdLe (leBytes n v) 0 n = v % 2 ^ (8 * n) := by
  have whole : (leBytes n v).take n = leBytes n v :=
    List.take_of_length_le (length_leBytes n v).le
  rw [rdLe, List.drop_zero, whole, leValue_leBytes, pow_mul]
  rfl

theorem exec_eq_execUnder (i : Instr) (s : State) :
    exec i s = execUnder Config.collaborators i s := by
  rw [exec_eq, execUnder_eq]

theorem step_eq_stepUnder (s : State) : step s = stepUnder Config.collaborators s := by
  unfold step stepUnder
  cases s.turn with
  | take i t => exact exec_eq_execUnder i t
  | become t => rfl

/-- Settles O30: a read is the sum of its digits, and reading back what was written is reduction
modulo the width, which leaves a value that fits as it is. -/
theorem littleEndianSum : Obligations.LittleEndianSum :=
  ⟨fun _ _ _ h => rdLe_eq_sum h, fun n v hv => by rw [rdLe_leBytes, Nat.mod_eq_of_lt hv]⟩

/-- Settles O28: both machines have the same meaning `after` of each command, and take the same
turn. -/
theorem machineUsesItsCollaborators : Obligations.MachineUsesItsCollaborators :=
  ⟨exec_eq_execUnder, step_eq_stepUnder⟩

end Sys2Proof.Machine
end

section
/-! State (10_state R22 to R37): what one step can come to, the registers each command may change,
the sequencer's moves, the fault register, and the invariant of a channel. -/

namespace Sys2Proof.Machine

open Sys2Proof.Safety

variable {Batch : Type} {c : Collaborators Batch} {i : Instr} {s t : Channel.State Batch}

/-! ### One step -/

/-- What a step can come to: once the input it takes is off the command stream and the queue of host
events, a command's move, the fault of an illegal code, or nothing more. -/
inductive StepMoves (c : Collaborators Batch) (s : Channel.State Batch) :
    Channel.State Batch → Prop where
  | command (cmds : Bytes) (hostq : List HostEvent) (i : Instr) (t : Channel.State Batch)
      (hm : Moves c { s with cmds := cmds, hostq := hostq } i t) : StepMoves c s t
  | illegal (cmds : Bytes) (hd : s.drops = false) :
      StepMoves c s (Channel.State.raise { s with cmds := cmds } .illegalCommand)
  | hold (cmds : Bytes) : StepMoves c s { s with cmds := cmds }

theorem stepMoves_illegalCommand (c : Collaborators Batch) (s : Channel.State Batch)
    (cmds : Bytes) :
    StepMoves c s (Channel.State.illegalCommand { s with cmds := cmds }) := by
  rcases Channel.State.illegalCommand_cases { s with cmds := cmds } with ⟨_, h⟩ | ⟨hd, h⟩ <;>
    rw [h]
  · exact .hold cmds
  · exact .illegal cmds hd

/-- Every step answers a next state, and it is one of the moves. -/
theorem stepUnder_moves (c : Collaborators Batch) (s : Channel.State Batch) :
    ∃ t, stepUnder c s = .next t ∧ StepMoves c s t := by
  unfold stepUnder Channel.State.turn
  cases decode s.cmds with
  | command i rest => exact ⟨_, execUnder_eq c i _, .command rest s.hostq i _ (after_moves c i _)⟩
  | illegalCode _ rest => exact ⟨_, rfl, stepMoves_illegalCommand c s rest⟩
  | truncatedDeliver => exact ⟨_, rfl, stepMoves_illegalCommand c s []⟩
  | endOfStream =>
    simp only [Channel.State.ownTurn]
    cases s.ownStep with
    | some i => exact ⟨_, execUnder_eq c i s, .command s.cmds s.hostq i _ (after_moves c i s)⟩
    | none =>
      cases takeFirst (fun e => s.enabled e.instr) s.hostq with
      | some p => exact ⟨_, execUnder_eq c _ _, .command s.cmds p.2 _ _ (after_moves c _ _)⟩
      | none => exact ⟨s, rfl, .hold s.cmds⟩

/-- The same for `step`, from its answer. -/
theorem step_moves {s t : State} (h : step s = .next t) : StepMoves Config.collaborators s t := by
  obtain ⟨t', ht', hm⟩ := stepUnder_moves Config.collaborators s
  rw [step_eq_stepUnder, ht'] at h
  obtain rfl := Host.Outcome.next.inj h
  exact hm

/-- Every move keeps the output history and the ASSEMBLER choice: AFRM and a buffered DELIVER write
registers that exist, CLOSE and RESET reset them where they do, and no other move writes them. -/
theorem Moves.keeps_history (h : Moves c s i t) :
    s.out <+: t.out ∧ t.asm.isSome = s.asm.isSome := by
  cases h with
  | afrm a F rest hc hs ha => simp [ha]
  | deliverBuffer B a hc hs ha => simp [ha]
  | close => simp [closeEffect]
  | reset => simp [resetEffect]
  | _ => simp

theorem StepMoves.keeps_history (h : StepMoves c s t) :
    s.out <+: t.out ∧ t.asm.isSome = s.asm.isSome := by
  cases h with
  | command cmds hostq i t hm => exact hm.keeps_history
  | illegal cmds hd => simp
  | hold cmds => simp

/-- Settles O35: a step is one of the moves, and each of them keeps the history and the choice. -/
theorem everyStepGoesOnAndKeepsHistory : Obligations.EveryStepGoesOnAndKeepsHistory := by
  intro s
  obtain ⟨t, ht, hm⟩ := stepUnder_moves Config.collaborators s
  exact ⟨t, (step_eq_stepUnder s).trans ht, hm.keeps_history⟩

/-! ### Which command changes what -/

/-- Settles O36: by the move the command makes. -/
theorem registersHaveTheirWriters : Obligations.RegistersHaveTheirWriters := by
  intro i s t h
  cases exec_moves h with
  | afrm | deliver | deliverBuffer | close | reset => exact .inl (by simp)
  | _ => exact .inr (by simp)

theorem created_of_not_drops (h : s.drops = false) : s.created = true := by
  simp_all [Channel.State.drops]

theorem st_of_not_drops (h : s.drops = false) : s.st ≠ .failed ∧ s.st ≠ .closed := by
  simp_all [Channel.State.drops]

/-- On a channel that exists, RESET is enabled in four values of `st` only (R66). -/
theorem st_of_reset_enabled (hc : s.created = true) (he : s.enabled .reset = true) :
    s.st = .idle ∨ s.st = .sent ∨ s.st = .failed ∨ s.st = .closed := by
  simp only [Channel.State.enabled, hc, Bool.not_true, Bool.false_or, Bool.and_eq_true,
    Bool.or_eq_true, St.ready_iff, decide_eq_true_eq, or_assoc] at he
  exact he.1

/-- Settles O37: a fault moves to Failed, and every other move names the values of `st` before and
after it. -/
theorem sequencerMoves : Obligations.SequencerMoves := by
  intro i s t h hc
  cases exec_moves h with
  | dropped | deliverBuffer => exact .inl rfl
  | hdec _ _ _ hs | pver _ _ _ _ hs | pdec _ _ _ hs | xfrm _ _ hs | penc _ _ hs
  | hfin _ _ _ hs | send _ _ _ hs => simp [hs]
  | afrm _ _ _ _ hs => rcases hs with hs | hs <;> simp [hs]
  | deliver B _ hs => exact .inr (.inr (.inr ⟨⟨B, rfl⟩, hs, rfl⟩))
  | close _ hs => rcases hs with hs | hs | hs <;> simp [hs, closeEffect]
  | reset he =>
    rcases st_of_reset_enabled hc he with hs | hs | hs | hs <;> simp [hs, resetEffect]
  | _ => exact .inr (.inl rfl)

/-- In Failed and Closed, no command but CLOSE and RESET does anything. -/
theorem Moves.of_failed_or_closed (h : Moves c s i t) (hs : s.st = .failed ∨ s.st = .closed) :
    t = s ∨ (i = .close ∧ t = closeEffect s) ∨ i = .reset := by
  cases h with
  | dropped => exact .inl rfl
  | close => exact .inr (.inl ⟨rfl, rfl⟩)
  | reset => exact .inr (.inr rfl)
  | orderViolation _ hd | illegal _ hd =>
    obtain ⟨hf, hk⟩ := st_of_not_drops hd
    simp [hf, hk] at hs
  | afrm _ _ _ _ hr | deliver _ _ hr | deliverBuffer _ _ _ hr =>
    rcases hr with hr | hr <;> simp [hr] at hs
  | _ => simp_all

/-- Settles O38: a latched fault means Failed or Closed, where only CLOSE and RESET act, and CLOSE
keeps `err`. -/
theorem firstFaultIsKept : Obligations.FirstFaultIsKept := by
  intro i s t hl he hi _ h
  obtain rfl | ⟨rfl, rfl⟩ | rfl := (exec_moves h).of_failed_or_closed (hl.2 he)
  · exact ⟨rfl, .inl⟩
  · exact ⟨rfl, fun _ => .inr ⟨rfl, rfl⟩⟩
  · exact absurd rfl hi

/-! ### Registers that hold none -/

@[simp] theorem Channel.State.withRegister_orderViolation {α : Type} (s : Channel.State Batch)
    (register : Option α) :
    (s.withRegister register fun _ => s.raise .orderViolation) = s.raise .orderViolation := by
  cases register <;> rfl

/-- An enabled command whose operand register holds `none` answers the fault of R32. -/
theorem next_orderViolation {effect : Channel.State Batch → Channel.State Batch}
    (he : s.enabled i = true) (hn : effect s = s.raise .orderViolation) :
    (.next (s.command i effect) : Channel.Outcome Batch) =
      .next { s with err := .orderViolation, st := .failed, out := s.out ++ [.fault 0x06] } := by
  rw [Channel.State.command_of_enabled he, hn]
  rfl

/-- Settles O11: each step is enabled, and its effect reads the register that holds `none`. -/
theorem unwrittenRegisterFaults : Obligations.UnwrittenRegisterFaults := by
  intro s hc
  refine ⟨?hdec, ?pver, ?pdec, ?xfrm, ?penc, ?hfin, ?send⟩ <;> rintro ⟨hs, hr⟩ <;>
    refine next_orderViolation (by simp [Channel.State.enabled, hc, hs]) ?_
  case hdec => simp [hdecEffect, hr]
  case pver => rcases hr with hr | hr <;> simp [pverEffect, hr]
  case pdec => simp [pdecEffect, hr]
  case xfrm => simp [xfrmEffect, hr]
  case penc => simp [pencEffect, hr]
  case hfin => rcases hr with hr | hr <;> simp [hfinEffect, hr]
  case send => rcases hr with hr | hr <;> simp [sendEffect, hr]

/-- Settles O1: RESET is enabled, and its effect writes each register's reset value. -/
theorem firstResetGivesResetState : Obligations.FirstResetGivesResetState :=
  fun _ => rfl

/-! ### The invariant where a channel starts -/

theorem readerCoherent_of_reset (ha : ∀ a, s.asm = some a → a = Assembler.reset) :
    ReaderCoherent s := by
  intro a h
  rw [ha a h]
  rfl

/-- A channel in Idle with nothing in any register has the invariant. -/
theorem inv_of_fresh (hs : s.st = .idle) (he : s.err = .none) (hr : registers s = {})
    (ha : ∀ a, s.asm = some a → a = Assembler.reset) (ho : s.created = false → s.out = []) :
    Inv c s := by
  refine ⟨?_, ?_, readerCoherent_of_reset ha, fun hc => ⟨hs, he, ho hc, ha⟩, fun _ => ha⟩
  · simpa only [StageHolds, hs] using hr
  · simp [FaultLatched, hs, he]

/-- Settles O51: each of the three is a fresh channel. -/
theorem invariantHoldsAtReset : Obligations.InvariantHoldsAtReset := by
  intro Batch c
  refine ⟨?_, ?_, ?_⟩ <;> refine inv_of_fresh rfl rfl rfl ?_ ?_ <;>
    simp [Channel.State.reset, Channel.State.uncreated]

/-! ### The invariant along every step -/

/-- The header depends on the first 26 bytes alone (R80). -/
theorem decodeHeader_take (B : Bytes) {n : Nat} (hn : 26 ≤ n) :
    decodeHeader (B.take n) = decodeHeader B := by
  have hread : memRead (B.take n) 0 Config.hdrSize = memRead B 0 Config.hdrSize := by
    simp [memRead, Config.hdrSize, List.take_take, hn]
  unfold decodeHeader
  rw [hread]

theorem splitFrame_eq_some_iff {A F rest : Bytes} :
    splitFrame A = some (F, rest) ↔
      ∃ h, decodeHeader A = some h ∧ 26 + h.payloadLength.toNat ≤ A.length ∧
        F = A.take (26 + h.payloadLength.toNat) ∧ rest = A.drop (26 + h.payloadLength.toNat) := by
  unfold splitFrame
  cases decodeHeader A with
  | none => simp
  | some h =>
    simp only [memRead]
    split <;> simp_all [eq_comm]

/-- The frame that is split off a buffer is one whole frame (R163). -/
theorem splitFrame_of_splitFrame {A F rest : Bytes} (hA : splitFrame A = some (F, rest)) :
    splitFrame F = some (F, []) := by
  obtain ⟨h, hh, hle, rfl, -⟩ := splitFrame_eq_some_iff.1 hA
  refine splitFrame_eq_some_iff.2 ⟨h, ?_, ?_, ?_, ?_⟩
  · rw [decodeHeader_take A (by omega), hh]
  all_goals simp [hle]

/-- Taking a fault leaves the invariant. -/
theorem inv_raise {code : FaultCode} (hc : s.created = true) (hr : ReaderCoherent s)
    (hcode : code ≠ .none) : Inv c (s.raise code) :=
  ⟨trivial, ⟨fun _ => hcode, fun _ => .inl rfl⟩, hr, by simp [BlankBeforeReset, hc],
    by simp [ClosedIsEmpty]⟩

/-- Outside Failed and Closed no fault is latched. -/
theorem err_of_faultLatched (h : FaultLatched s) (hf : s.st ≠ .failed) (hk : s.st ≠ .closed) :
    s.err = .none := by
  by_contra he
  exact (h.2 he).elim hf hk

/-- A move between states other than Failed and Closed that keeps `created` and `err` has to show
only the registers of its stage and the reader state. -/
theorem inv_of_stage (hi : Inv c s) (hd : s.drops = false) (stage : StageHolds c t)
    (reader : ReaderCoherent t) (created : t.created = s.created := by rfl)
    (err : t.err = s.err := by rfl) (hf : t.st ≠ .failed := by nofun)
    (hk : t.st ≠ .closed := by nofun) : Inv c t := by
  obtain ⟨-, latched, -, -, -⟩ := hi
  obtain ⟨hsf, hsk⟩ := st_of_not_drops hd
  have noFault : t.err = .none := err.trans (err_of_faultLatched latched hsf hsk)
  refine ⟨stage, ?_, reader, ?_, fun h => absurd h hk⟩
  · simp [FaultLatched, noFault, hf]
  · simp [BlankBeforeReset, created, created_of_not_drops hd]

/-! What each command makes of the stage before it: the registers it reads are those of the stage,
so the register it writes is computed from the same delivery. -/

theorem stage_hdec {B : Bytes} {h : Header} (hi : StageHolds c s) (hs : s.st = .received)
    (hr : s.rx = some B) (hh : decodeHeader B = some h) :
    StageHolds c { s with hdr := some h, st := .headerDecoded } := by
  simp only [StageHolds, hs] at hi
  obtain ⟨B', arrived, regs⟩ := hi
  obtain rfl := Option.some.inj (hr.symm.trans (congrArg Registers.rx regs))
  exact ⟨B, h, arrived, hh, congrArg (fun r => { r with hdr := some h }) regs⟩

theorem stage_pver {B P : Bytes} {h : Header} (hi : StageHolds c s)
    (hs : s.st = .headerDecoded) (hr : s.rx = some B) (hh : s.hdr = some h)
    (hp : memRead B 26 h.payloadLength.toNat = some P) (hv : c.digest64 P = h.payloadChecksum) :
    StageHolds c { s with pin := some P, st := .payloadVerified } := by
  simp only [StageHolds, hs] at hi
  obtain ⟨B', h', -, hdec, regs⟩ := hi
  obtain rfl := Option.some.inj (hr.symm.trans (congrArg Registers.rx regs))
  obtain rfl := Option.some.inj (hh.symm.trans (congrArg Registers.hdr regs))
  exact ⟨B, h, P, ⟨hdec, hp, hv⟩, congrArg (fun r => { r with pin := some P }) regs⟩

theorem stage_pdec {P : Bytes} {S : List Batch} (hi : StageHolds c s)
    (hs : s.st = .payloadVerified) (hp : s.pin = some P) (hd : c.pdecode P = some S) :
    StageHolds c { s with sdec := some S, st := .payloadDecoded } := by
  simp only [StageHolds, hs] at hi
  obtain ⟨B, h, P', verified, regs⟩ := hi
  obtain rfl := Option.some.inj (hp.symm.trans (congrArg Registers.pin regs))
  exact ⟨B, h, P, S, verified, hd, congrArg (fun r => { r with sdec := some S }) regs⟩

theorem stage_xfrm {S : List Batch} (hi : StageHolds c s) (hs : s.st = .payloadDecoded)
    (hp : s.sdec = some S) :
    StageHolds c { s with tseq := some [S], st := .transformed } := by
  simp only [StageHolds, hs] at hi
  obtain ⟨B, h, P, S', verified, decoded, regs⟩ := hi
  obtain rfl := Option.some.inj (hp.symm.trans (congrArg Registers.sdec regs))
  exact ⟨B, h, P, S, verified, decoded, congrArg (fun r => { r with tseq := some [S] }) regs⟩

theorem stage_penc {T : List (List Batch)} (hi : StageHolds c s) (hs : s.st = .transformed)
    (hp : s.tseq = some T) :
    StageHolds c { s with pout := some (c.pencode T), st := .payloadEncoded } := by
  simp only [StageHolds, hs] at hi
  obtain ⟨B, h, P, S, verified, decoded, regs⟩ := hi
  obtain rfl := Option.some.inj (hp.symm.trans (congrArg Registers.tseq regs))
  exact ⟨B, h, P, S, verified, decoded,
    congrArg (fun r => { r with pout := some (c.pencode [S]) }) regs⟩

theorem stage_hfin {h : Header} {Q : Bytes} (hi : StageHolds c s) (hs : s.st = .payloadEncoded)
    (hh : s.hdr = some h) (hq : s.pout = some Q) (hl : h.payloadLength.toNat + 4 < 2 ^ 32) :
    StageHolds c
      { s with
        basis := some (bootHeader c (outboundHeader c h Q)).basis
        hbytes := some (bootHeader c (outboundHeader c h Q)).final
        hdr := some (bootHeader c (outboundHeader c h Q)).header
        st := .headerFinalized } := by
  simp only [StageHolds, hs] at hi
  obtain ⟨B, h', P, S, verified, decoded, regs⟩ := hi
  obtain rfl := Option.some.inj (hh.symm.trans (congrArg Registers.hdr regs))
  obtain rfl := Option.some.inj (hq.symm.trans (congrArg Registers.pout regs))
  refine ⟨B, h, P, S, verified, decoded, hl, ?_⟩
  simp_all only [registers, Registers.mk.injEq]

theorem stage_send (hi : StageHolds c s) (hs : s.st = .headerFinalized) (e : Event) :
    StageHolds c (Channel.State.emit { s with st := .sent } e) := by
  simp only [StageHolds, hs] at hi
  exact hi

/-- In Idle and Sent the stage does not speak of the assembler (R160). -/
theorem stage_deliverBuffer (hi : StageHolds c s) (hs : s.st = .idle ∨ s.st = .sent)
    (asm : Option Assembler) : StageHolds c { s with asm := asm } := by
  rcases hs with hs | hs <;> simp only [StageHolds, hs] at hi ⊢ <;> exact hi

/-- A delivery starts an exchange; with the assembler it is one whole frame (R163). -/
theorem stage_delivery {B : Bytes} {asm : Option Assembler}
    (ha : asm.isSome = true → splitFrame B = some (B, [])) :
    StageHolds c { s.clearDerived with rx := some B, asm := asm, st := .received } :=
  ⟨B, ha, rfl⟩

/-- A buffer written with its own reader state. -/
theorem readerCoherent_some {A : Bytes}
    (ha : s.asm = some { amode := readerState A, abuf := A }) : ReaderCoherent s := by
  intro a h
  obtain rfl := Option.some.inj (ha.symm.trans h)
  rfl

/-- CLOSE leaves nothing in the exchange and assembler registers, and `err` in Closed (R151). -/
theorem inv_closeEffect (hc : s.created = true) : Inv c (closeEffect s) := by
  have cleared : ∀ a, (closeEffect s).asm = some a → a = Assembler.reset := by simp [closeEffect]
  have kept : (closeEffect s).created = true := hc
  refine ⟨rfl, ⟨nofun, fun _ => .inr rfl⟩, readerCoherent_of_reset cleared, ?_, fun _ => cleared⟩
  simp [BlankBeforeReset, kept]

theorem inv_resetEffect : Inv c (resetEffect s) :=
  inv_of_fresh rfl rfl rfl (by simp [resetEffect]) (by simp [resetEffect])

/-- Every command keeps the invariant. -/
theorem Moves.keeps_inv (hi : Inv c s) (h : Moves c s i t) : Inv c t := by
  have ⟨stage, _, reader, _, _⟩ := hi
  cases h with
  | dropped => exact hi
  | orderViolation _ hd | illegal _ hd =>
    exact inv_raise (created_of_not_drops hd) reader (by decide)
  | hdecShort _ hc | pverShort _ _ hc | pverMismatch _ _ _ hc | pdecReject _ hc
  | hfinOverflow _ _ hc =>
    exact inv_raise hc reader (by decide)
  | hdec _ _ hc hs hr hh =>
    exact inv_of_stage hi (drops_of_st hc hs nofun nofun) (stage_hdec stage hs hr hh) reader
  | pver _ _ _ hc hs hr hh hp hv =>
    exact inv_of_stage hi (drops_of_st hc hs nofun nofun) (stage_pver stage hs hr hh hp hv) reader
  | pdec _ _ hc hs hp hd =>
    exact inv_of_stage hi (drops_of_st hc hs nofun nofun) (stage_pdec stage hs hp hd) reader
  | xfrm _ hc hs hp =>
    exact inv_of_stage hi (drops_of_st hc hs nofun nofun) (stage_xfrm stage hs hp) reader
  | penc _ hc hs hp =>
    exact inv_of_stage hi (drops_of_st hc hs nofun nofun) (stage_penc stage hs hp) reader
  | hfin _ _ hc hs hh hq hl =>
    exact inv_of_stage hi (drops_of_st hc hs nofun nofun) (stage_hfin stage hs hh hq hl) reader
  | send _ _ hc hs =>
    exact inv_of_stage hi (drops_of_st hc hs nofun nofun) (stage_send stage hs _) reader
  | afrm _ _ _ hc hs _ _ hf =>
    exact inv_of_stage hi (drops_of_ready hc hs)
      (stage_delivery fun _ => splitFrame_of_splitFrame hf) (readerCoherent_some rfl)
  | deliver _ hc hs ha =>
    exact inv_of_stage hi (drops_of_ready hc hs) (stage_delivery (by simp [ha])) reader
  | deliverBuffer _ _ hc hs =>
    have hd := drops_of_ready hc hs
    obtain ⟨hf, hk⟩ := st_of_not_drops hd
    exact inv_of_stage hi hd (stage_deliverBuffer stage hs _) (readerCoherent_some rfl)
      (hf := hf) (hk := hk)
  | close hc => exact inv_closeEffect hc
  | reset => exact inv_resetEffect

/-- Every step keeps the invariant: taking input off the stream or the queue changes no register. -/
theorem StepMoves.keeps_inv (hi : Inv c s) (h : StepMoves c s t) : Inv c t := by
  have ⟨_, _, reader, _, _⟩ := hi
  cases h with
  | command cmds hostq i t hm =>
    have taken : Inv c { s with cmds := cmds, hostq := hostq } := hi
    exact hm.keeps_inv taken
  | illegal cmds hd => exact inv_raise (created_of_not_drops hd) reader (by decide)
  | hold cmds => exact hi

/-- Settles O52: a step is one of the moves, and each of them keeps the invariant. -/
theorem everyStepKeepsInvariant : Obligations.EveryStepKeepsInvariant :=
  fun _ _ hi h => (step_moves h).keeps_inv hi

end Sys2Proof.Machine
end

section
/-! Memory (20_memory R50): a system of channels shares no mutable state. -/

namespace Sys2Proof.Machine

/-- What a step answers as a function of the state alone: no step ends in a fault or a refusal. -/
theorem exists_step_eq_next : ∃ f : State → State, ∀ s, step s = .next (f s) :=
  Classical.skolem.mp fun s =>
    let ⟨t, ht, _⟩ := everyStepGoesOnAndKeepsHistory s
    ⟨t, ht⟩

section System

variable {f : State → State} (hf : ∀ s, step s = .next (f s))
include hf

/-- A channel's step reads and writes its own place in the list. -/
theorem stepChannel_eq_modify (channels : List State) (k : Nat) :
    stepChannel channels k = .next (channels.modify k f) := by
  rw [List.modify_eq_set_getElem?]
  cases h : channels[k]? with
  | none => simp [stepChannel, h]
  | some s => simp [stepChannel, h, hf s]

theorem runChannels_pair (channels : List State) (j k : Nat) :
    runChannels channels [j, k] = .next ((channels.modify j f).modify k f) := by
  simp only [runChannels, stepChannel_eq_modify hf]

end System

/-- Settles O44: each step changes one place of the list, and changes at different places commute. -/
theorem channelsAreIndependent : Obligations.ChannelsAreIndependent := by
  intro channels j k hjk
  obtain ⟨f, hf⟩ := exists_step_eq_next
  constructor
  · intro after h
    rw [stepChannel_eq_modify hf] at h
    obtain rfl := Host.Outcome.next.inj h
    exact List.getElem?_modify_ne f channels hjk.symm
  · rw [runChannels_pair hf, runChannels_pair hf, List.modify_modify_ne f f channels hjk]

end Sys2Proof.Machine
end

section
/-! Encoding (30_encoding R66 to R68): the decoder accepts exactly the encodings of the well-formed
commands, what a step does on bytes it refuses, and that a stream of encodings runs as its list of
commands. -/

namespace Sys2Proof.Machine

variable {Batch : Type}

/-! ### DELIVER in a stream -/

theorem decode_deliverCode (bs : Bytes) : decode (deliverCode :: bs) = decodeDeliver bs := rfl

/-- The decoder of a DELIVER, by the one length check that covers its length field too (R67). -/
theorem decodeDeliver_eq (bs : Bytes) :
    decodeDeliver bs =
      if 4 + rdLe bs 0 4 ≤ bs.length then
        .command (.deliver ((bs.drop 4).take (rdLe bs 0 4))) (bs.drop (4 + rdLe bs 0 4))
      else .truncatedDeliver := by
  split_ifs with whole
  · have lenBytes : memRead bs 0 4 = some ((bs.drop 0).take 4) := memRead_of_le (by omega)
    have operand : memRead bs 4 (leValue ((bs.drop 0).take 4)) =
        some ((bs.drop 4).take (rdLe bs 0 4)) := memRead_of_le whole
    simp only [decodeDeliver, lenBytes, operand]
    rfl
  · unfold decodeDeliver
    cases lenBytes : memRead bs 0 4 with
    | none => rfl
    | some L =>
      obtain ⟨-, rfl⟩ := memRead_eq_some_iff.1 lenBytes
      have noOperand : memRead bs 4 (leValue ((bs.drop 0).take 4)) = none :=
        memRead_eq_none_iff.2 (Nat.not_le.1 whole)
      simp only [noOperand]

theorem decodeDeliver_eq_truncated_iff {bs : Bytes} :
    decodeDeliver bs = .truncatedDeliver ↔ bs.length < 4 + rdLe bs 0 4 := by
  rw [decodeDeliver_eq]
  split_ifs with whole <;> simpa using whole

/-- The length field reads back as the operand's length, if 32 bits hold it. -/
theorem rdLe_lengthField {n : Nat} (hn : n < 2 ^ 32) (tail : Bytes) :
    rdLe (leBytes 4 n ++ tail) 0 4 = n := by
  rw [← rdLe_take _ (m := 4) (by omega), List.take_left' (length_leBytes 4 n), rdLe_leBytes,
    Nat.mod_eq_of_lt hn]

/-- The decoder reads a DELIVER back from its bytes after the code (R67). -/
theorem decodeDeliver_append {operand : Bytes} (h : operand.length < 2 ^ 32) (rest : Bytes) :
    decodeDeliver (leBytes 4 operand.length ++ (operand ++ rest)) =
      .command (.deliver operand) rest := by
  have afterField (n : Nat) : (leBytes 4 operand.length ++ (operand ++ rest)).drop (4 + n) =
      (operand ++ rest).drop n := by
    rw [← List.drop_drop, List.drop_left' (length_leBytes 4 _)]
  rw [decodeDeliver_eq, rdLe_lengthField h, afterField, if_pos (by simp), List.drop_left,
    List.drop_left' (length_leBytes 4 _), List.take_left]

/-- What the decoder reads as a DELIVER is that DELIVER's bytes (R67). -/
theorem of_decodeDeliver_eq_command {bs rest : Bytes} {i : Instr}
    (h : decodeDeliver bs = .command i rest) :
    i.wellFormed = true ∧ deliverCode :: bs = encode i ++ rest := by
  rw [decodeDeliver_eq] at h
  split_ifs at h with hle
  obtain ⟨rfl, rfl⟩ := Decoded.command.inj h
  have size : ((bs.drop 4).take (rdLe bs 0 4)).length = rdLe bs 0 4 := by
    rw [List.length_take, List.length_drop]
    omega
  have field : leBytes 4 (rdLe bs 0 4) = bs.take 4 := by
    have four : (bs.take 4).length = 4 := List.length_take_of_le (by omega)
    have written := leBytes_leValue (bs.take 4)
    rwa [four] at written
  constructor
  · simpa [Instr.wellFormed, size] using rdLe_lt bs 0 4
  · simp only [encode, size, field, List.cons_append, List.append_assoc, ← List.drop_drop,
      List.take_append_drop]

/-! ### The one-byte commands, and all commands -/

theorem encode_deliver_ne_singleton (operand : Bytes) (b : Byte) :
    encode (.deliver operand) ≠ [b] := by
  intro h
  have short := congrArg List.length h
  simp [encode] at short

/-- The table holds exactly the commands of one byte. -/
theorem lookup_commandTable_eq_some_iff {b : Byte} {i : Instr} :
    commandTable.lookup b = some i ↔ encode i = [b] := by
  constructor
  · intro h
    have mem : (b, i) ∈ commandTable := by
      obtain ⟨before, behind, parts, -⟩ := List.lookup_eq_some_iff.1 h
      simp [parts]
    have table : ∀ p ∈ commandTable, encode p.2 = [p.1] := by decide
    exact table _ mem
  · cases i with
    | deliver operand => exact fun h => absurd h (encode_deliver_ne_singleton operand b)
    | _ =>
      intro h
      obtain rfl := (List.cons.inj h).1
      rfl

/-- A command of one byte is read back from it (R66). -/
theorem decode_of_encode_eq_singleton {b : Byte} {i : Instr} (h : encode i = [b]) (rest : Bytes) :
    decode (b :: rest) = .command i rest := by
  have found := lookup_commandTable_eq_some_iff.2 h
  have hb : b ≠ deliverCode := by
    rintro rfl
    cases found
  rw [decode, if_neg hb, found]

/-- The codes that select no command, whatever ASSEMBLER is (R68). -/
abbrev UnassignedCode (b : Byte) : Prop :=
  b.toNat = 0 ∨ 0x09 ≤ b.toNat ∧ b.toNat ≤ 0x0F ∨ 0x13 ≤ b.toNat

theorem decode_of_unassignedCode {b : Byte} (hb : UnassignedCode b) (rest : Bytes) :
    decode (b :: rest) = .illegalCode b rest := by
  have notDeliver : b ≠ deliverCode := by
    rintro rfl
    exact absurd hb (by decide)
  have notInTable : commandTable.lookup b = none := by
    have assigned : ∀ p ∈ commandTable, ¬ UnassignedCode p.1 := by decide
    refine List.lookup_eq_none_iff.2 fun p hp => ?_
    have : b ≠ p.1 := fun h => assigned p hp (h ▸ hb)
    simpa using this
  rw [decode, if_neg notDeliver, notInTable]

/-- Settles O23: a command of one byte is found in the table, and a DELIVER's length field says
where its operand ends. -/
theorem decodeAfterEncode : Obligations.DecodeAfterEncode := by
  intro i rest h
  cases i with
  | deliver operand =>
    have fits : operand.length < 2 ^ 32 := of_decide_eq_true h
    have word : encode (.deliver operand) ++ rest =
        deliverCode :: (leBytes 4 operand.length ++ (operand ++ rest)) := by simp [encode]
    rw [word, decode_deliverCode, decodeDeliver_append fits]
  | _ => exact decode_of_encode_eq_singleton rfl rest

/-- Settles O24: the code byte is DELIVER's, whose length field fixes the operand, or it is in the
table. -/
theorem encodeAfterDecode : Obligations.EncodeAfterDecode := by
  intro bs rest i h
  cases bs with
  | nil => cases h
  | cons b bs =>
    by_cases hb : b = deliverCode
    · subst hb
      exact of_decodeDeliver_eq_command h
    · rw [decode, if_neg hb] at h
      cases found : commandTable.lookup b with
      | none => simp [found] at h
      | some j =>
        simp only [found, Decoded.command.injEq] at h
        obtain ⟨rfl, rfl⟩ := h
        have word := lookup_commandTable_eq_some_iff.1 found
        refine ⟨?_, by simp [word]⟩
        cases j with
        | deliver operand => exact absurd word (encode_deliver_ne_singleton operand b)
        | _ => rfl

/-- Settles O22: each word is the encoding of its command. -/
theorem writtenWordsDecode : Obligations.WrittenWordsDecode :=
  ⟨decodeAfterEncode .hdec [0x02] rfl, decodeAfterEncode .send [] rfl,
    decodeAfterEncode .afrm [] rfl, decodeAfterEncode (.deliver [0xAB, 0xCD]) [0x12] rfl,
    decodeAfterEncode .close [0x12] rfl⟩

/-! ### Steps on the stream -/

/-- What an illegal command leaves, with its whole next state (R68). -/
theorem illegalCommand_eq (s : Channel.State Batch) :
    s.illegalCommand =
      if s.created = false ∨ s.st = .failed ∨ s.st = .closed then s
      else
        { s with err := .illegalCommand, st := .failed, out := s.out ++ [.fault 0x07] } := by
  simp only [← s.drops_eq_true_iff]
  rcases s.illegalCommand_cases with ⟨hd, h⟩ | ⟨hd, h⟩ <;> rw [h, hd] <;> rfl

/-- Settles O20: the byte decodes to an illegal code. -/
theorem illegalCodeFaults : Obligations.IllegalCodeFaults := by
  intro s b rest hs hb
  have turn : s.turn = .become (Channel.State.illegalCommand { s with cmds := rest }) := by
    rw [Channel.State.turn, hs, decode_of_unassignedCode hb]
  rw [step, turn, illegalCommand_eq]

/-- Settles O21: a stream too short for the length field is too short for what the field says. -/
theorem truncatedDeliverFaults : Obligations.TruncatedDeliverFaults := by
  intro s bs hs hlen
  have truncated : decode s.cmds = .truncatedDeliver := by
    rw [hs]
    exact decodeDeliver_eq_truncated_iff.2 (by omega)
  have turn : s.turn = .become (Channel.State.illegalCommand { s with cmds := [] }) := by
    rw [Channel.State.turn, truncated]
  rw [step, turn, illegalCommand_eq]

/-- A command of the stream is taken at the next step, past its bytes (R67, R122). -/
theorem stepUnder_of_decode {c : Collaborators Batch} {s : Channel.State Batch} {i : Instr}
    {rest : Bytes} (h : decode s.cmds = .command i rest) :
    stepUnder c s = .next (after c i { s with cmds := rest }) := by
  rw [stepUnder, Channel.State.turn, h, ← execUnder_eq]

/-! ### No command reads or writes the stream -/

/-- The effect does the same whatever stands in the command stream, and leaves it there. -/
def StreamBlind (effect : Channel.State Batch → Channel.State Batch) : Prop :=
  ∀ (s : Channel.State Batch) (cmds : Bytes),
    effect { s with cmds := cmds } = { effect s with cmds := cmds }

theorem streamBlind_raise_of_not_drops (code : FaultCode) :
    StreamBlind fun s : Channel.State Batch => if s.drops then s else s.raise code := by
  intro s cmds
  have drops : Channel.State.drops { s with cmds := cmds } = s.drops := rfl
  simp only [drops]
  cases s.drops <;> rfl

theorem streamBlind_notEnabled : StreamBlind (Channel.State.notEnabled (Batch := Batch)) :=
  streamBlind_raise_of_not_drops .orderViolation

theorem streamBlind_illegalCommand :
    StreamBlind (Channel.State.illegalCommand (Batch := Batch)) :=
  streamBlind_raise_of_not_drops .illegalCommand

theorem enabled_withStream (s : Channel.State Batch) (cmds : Bytes) (i : Instr) :
    Channel.State.enabled { s with cmds := cmds } i = s.enabled i := by
  cases i <;> rfl

theorem StreamBlind.command {effect : Channel.State Batch → Channel.State Batch}
    (h : StreamBlind effect) (i : Instr) :
    StreamBlind fun s => s.command i effect := by
  intro s cmds
  simp only [Channel.State.command, enabled_withStream, h s cmds, streamBlind_notEnabled s cmds]
  cases s.enabled i <;> rfl

theorem StreamBlind.withRegister {α : Type} {register : Channel.State Batch → Option α}
    {next : Channel.State Batch → α → Channel.State Batch}
    (hr : ∀ s cmds, register { s with cmds := cmds } = register s)
    (hn : ∀ v, StreamBlind fun s => next s v) :
    StreamBlind fun s => s.withRegister (register s) (next s) := by
  intro s cmds
  simp only [hr]
  cases register s with
  | none => rfl
  | some v => exact hn v s cmds

theorem streamBlind_hdecEffect : StreamBlind (hdecEffect (Batch := Batch)) :=
  .withRegister (fun _ _ => rfl) fun B s cmds => by cases decodeHeader B <;> rfl

theorem streamBlind_pverEffect (c : Collaborators Batch) : StreamBlind (pverEffect c) := by
  refine .withRegister (fun _ _ => rfl) fun B => .withRegister (fun _ _ => rfl) fun h s cmds => ?_
  cases memRead B Config.hdrSize h.payloadLength.toNat with
  | none => rfl
  | some P =>
    dsimp only
    split_ifs <;> rfl

theorem streamBlind_pdecEffect (c : Collaborators Batch) : StreamBlind (pdecEffect c) :=
  .withRegister (fun _ _ => rfl) fun P s cmds => by cases c.pdecode P <;> rfl

theorem streamBlind_hfinEffect (c : Collaborators Batch) : StreamBlind (hfinEffect c) := by
  refine .withRegister (fun _ _ => rfl) fun h => .withRegister (fun _ _ => rfl) fun Q s cmds => ?_
  split_ifs <;> rfl

theorem streamBlind_afrmEffect : StreamBlind (afrmEffect (Batch := Batch)) :=
  .withRegister (fun _ _ => rfl) fun _ => .withRegister (fun _ _ => rfl) fun _ _ _ => rfl

theorem streamBlind_deliverEffect (B : Bytes) : StreamBlind (deliverEffect (Batch := Batch) B) := by
  intro s cmds
  unfold deliverEffect
  dsimp only
  split <;> rfl

/-- Every command reads and writes registers, not the stream. -/
theorem streamBlind_after (c : Collaborators Batch) (i : Instr) : StreamBlind (after c i) := by
  cases i with
  | hdec => exact streamBlind_hdecEffect.command _
  | pver => exact (streamBlind_pverEffect c).command _
  | pdec => exact (streamBlind_pdecEffect c).command _
  | xfrm => exact StreamBlind.command (.withRegister (fun _ _ => rfl) fun _ _ _ => rfl) _
  | penc => exact StreamBlind.command (.withRegister (fun _ _ => rfl) fun _ _ _ => rfl) _
  | hfin => exact (streamBlind_hfinEffect c).command _
  | send =>
    exact StreamBlind.command
      (.withRegister (fun _ _ => rfl) fun _ => .withRegister (fun _ _ => rfl) fun _ _ _ => rfl) _
  | afrm =>
    intro s cmds
    cases h : s.asm with
    | none => simpa only [after, h] using streamBlind_illegalCommand s cmds
    | some a => simpa only [after, h] using streamBlind_afrmEffect.command .afrm s cmds
  | deliver B => exact (streamBlind_deliverEffect B).command _
  | close => exact StreamBlind.command (fun _ _ => rfl) _
  | reset => exact StreamBlind.command (fun _ _ => rfl) _

/-- Settles O29, by induction on the list: the first command is taken off the stream, and its effect
leaves the encodings of the others there. -/
theorem streamRunsAsCommandList : Obligations.StreamRunsAsCommandList := by
  intro Batch c is s rest wf
  induction is generalizing s with
  | nil => rfl
  | cons i is ih =>
    obtain ⟨hi, his⟩ := List.forall_mem_cons.1 wf
    have head : decode (encodeAll (i :: is) ++ rest) = .command i (encodeAll is ++ rest) := by
      simpa [encodeAll] using decodeAfterEncode i (encodeAll is ++ rest) hi
    have firstStep : stepUnder c { s with cmds := encodeAll (i :: is) ++ rest } =
        .next { after c i s with cmds := encodeAll is ++ rest } := by
      rw [stepUnder_of_decode head, ← streamBlind_after]
    simp only [List.length_cons, runSteps, firstStep, runCommands, execUnder_eq]
    rw [streamBlind_after c i s rest]
    exact ih _ his

end Sys2Proof.Machine
end

section
/-! Header codec (40_header_codec R80 to R91): HDR.DECODE and HDR.ENCODE undo each other on the 26
header bytes, and which header a command can leave in `hdr`. -/

namespace Sys2Proof.Machine

/-! ### One field -/

/-- The bytes of an earlier field do not matter to a read past them. -/
theorem rdLe_leBytes_append_of_le {m off : Nat} (h : m ≤ off) (v n : Nat) (rest : Bytes) :
    rdLe (leBytes m v ++ rest) off n = rdLe rest (off - m) n := by
  rw [rdLe, List.drop_append, length_leBytes, List.drop_of_length_le (by simpa using h)]
  rfl

/-- A field that fills its bytes is read back from the front of them. -/
theorem ofNat_rdLe_leBytes_append {w n : Nat} (hw : w = 8 * n) (v : BitVec w) (rest : Bytes) :
    BitVec.ofNat w (rdLe (leBytes n v.toNat ++ rest) 0 n) = v := by
  have whole : rdLe (leBytes n v.toNat ++ rest) 0 n = rdLe (leBytes n v.toNat) 0 n := by
    simp [rdLe, List.take_of_length_le]
  rw [whole, rdLe_leBytes, ← hw, Nat.mod_eq_of_lt v.isLt, BitVec.ofNat_toNat, BitVec.setWidth_eq]

/-- The value read from a field fits in the field's width. -/
theorem toNat_ofNat_rdLe {w n : Nat} (hw : w = 8 * n) (B : Bytes) (off : Nat) :
    (BitVec.ofNat w (rdLe B off n)).toNat = rdLe B off n := by
  have hlt := rdLe_lt B off n
  rw [BitVec.toNat_ofNat, Nat.mod_eq_of_lt]
  rwa [hw, pow_mul]

/-- Writing back the value read from a field inside a buffer gives the field's bytes. -/
theorem leBytes_rdLe {B : Bytes} {off n : Nat} (h : off + n ≤ B.length) :
    leBytes n (rdLe B off n) = (B.drop off).take n := by
  have hlen : ((B.drop off).take n).length = n := by
    rw [List.length_take, List.length_drop]
    omega
  conv_rhs => rw [← leBytes_leValue ((B.drop off).take n), hlen]
  rfl

/-- Two neighbouring pieces of a buffer are one piece. -/
theorem take_drop_append_take_drop {off n next : Nat} (h : off + n = next) (B : Bytes) (m : Nat) :
    (B.drop off).take n ++ (B.drop next).take m = (B.drop off).take (n + m) := by
  rw [List.take_add, List.drop_drop, h]

/-! ### The two directions of the codec -/

theorem toList_encodeHeader (h : Header) : (encodeHeader h).toList = headerBytes h := rfl

/-- Settles O31: each field is read from the bytes it was written to. -/
theorem headerDecodeAfterEncode : Obligations.HeaderDecodeAfterEncode := by
  intro h rest
  have hlen : 26 ≤ ((encodeHeader h).toList ++ rest).length := by
    simp [(encodeHeader h).size_eq]
  rw [decodeHeader_of_le hlen, toList_encodeHeader, headerBytes_eq]
  simp [rdLe_leBytes_append_of_le, ofNat_rdLe_leBytes_append]

/-- Settles O32: the fields' bytes are neighbouring pieces of the buffer, and together its first
26. -/
theorem headerEncodeAfterDecode : Obligations.HeaderEncodeAfterDecode := by
  intro B hB
  refine ⟨(decodeHeader_take B le_rfl).symm, _, decodeHeader_of_le hB, ?_⟩
  rw [toList_encodeHeader, headerBytes_eq]
  simp (disch := omega) only [toNat_ofNat_rdLe, leBytes_rdLe, take_drop_append_take_drop]
  rfl

/-! ### The header register -/

/-- A command other than HDEC keeps `hdr`, clears it, or finalizes the header in it (R140). -/
theorem Moves.hdr_cases {Batch : Type} {c : Collaborators Batch} {i : Instr}
    {s t : Channel.State Batch} (hm : Moves c s i t) (hi : i ≠ .hdec) :
    t.hdr = s.hdr ∨ t.hdr = none ∨
      ∃ h Q, s.hdr = some h ∧ t.hdr = some (bootHeader c (outboundHeader c h Q)).header := by
  cases hm with
  | hdec => exact absurd rfl hi
  | hfin h Q _ _ hh => exact .inr (.inr ⟨h, Q, hh, rfl⟩)
  | afrm | deliver | close | reset => exact .inr (.inl rfl)
  | _ => exact .inl rfl

/-- Settles O39: finalizing the header writes the two checksums and the length alone. -/
theorem opaqueFieldsPassThrough : Obligations.OpaqueFieldsPassThrough := by
  intro i s t h hh hi ht
  obtain hk | hn | ⟨h', Q, hh', hf⟩ := (exec_moves ht).hdr_cases hi
  · exact .inr ⟨h, hk.trans hh, rfl, rfl, rfl, rfl⟩
  · exact .inl hn
  · obtain rfl : h' = h := Option.some.inj (hh'.symm.trans hh)
    exact .inr ⟨_, hf, rfl, rfl, rfl, rfl⟩

end Sys2Proof.Machine
end

section
/-! Integrity (41_integrity R100 to R111): the payload check and its byte form, the two-pass header
emission, the frames that carry their own header check, and what the codec and the inbound header
checksum can and cannot change. -/

namespace Sys2Proof.Machine

open Sys2Proof.Safety

variable {Batch : Type} {c c' : Collaborators Batch} {i : Instr} {s t : Channel.State Batch}

/-! ### Frames that carry their own header check -/

/-- A header of the two-pass emission certifies every frame that begins with it (R108, R111). -/
theorem certifiedHeader_bootHeader (c : Collaborators Batch) (h : Header) (Q : Bytes) :
    CertifiedHeader c ((bootHeader c h).final.toList ++ Q) :=
  ⟨withHC h (headerCheck c h), headerDecodeAfterEncode _ Q, rfl⟩

/-- The header SEND writes is one the two-pass emission made (R140). -/
theorem hbytes_of_headerFinalized {H : Bytes26} (hi : Inv c s) (hs : s.st = .headerFinalized)
    (hh : s.hbytes = some H) : ∃ h, H = (bootHeader c h).final := by
  obtain ⟨stage, -⟩ := hi
  simp only [StageHolds, hs] at stage
  obtain ⟨B, h, P, S, -, -, -, regs⟩ := stage
  exact ⟨_, Option.some.inj (hh.symm.trans (congrArg Registers.hbytes regs))⟩

/-- SEND alone writes a frame: its header register, then a payload (R144). -/
theorem Moves.mem_out_of_tx {F : Bytes} (h : Moves c s i t) (hF : Event.tx F ∈ t.out) :
    Event.tx F ∈ s.out ∨
      s.st = .headerFinalized ∧ ∃ H Q, s.hbytes = some H ∧ F = H.toList ++ Q := by
  cases h with
  | send H Q _ hs hh =>
    have : Event.tx F ∈ s.out ∨ F = H.toList ++ Q := by simpa using hF
    exact this.imp_right fun hF => ⟨hs, H, Q, hh, hF⟩
  | close => exact .inl (by simpa [closeEffect] using hF)
  | reset => exact .inl (by simpa [resetEffect] using hF)
  | _ => exact .inl (by simpa using hF)

theorem Moves.keeps_sentCertified (hi : Inv c s) (hc : SentCertified c s) (h : Moves c s i t) :
    SentCertified c t := by
  intro F hF
  obtain old | ⟨hs, H, Q, hh, rfl⟩ := h.mem_out_of_tx hF
  · exact hc F old
  · obtain ⟨h, rfl⟩ := hbytes_of_headerFinalized hi hs hh
    exact certifiedHeader_bootHeader c h Q

theorem StepMoves.keeps_sentCertified (hi : Inv c s) (hc : SentCertified c s)
    (h : StepMoves c s t) : SentCertified c t := by
  cases h with
  | command cmds hostq i t hm =>
    have taken : Inv c { s with cmds := cmds, hostq := hostq } := hi
    exact hm.keeps_sentCertified taken hc
  | illegal cmds hd => exact fun F hF => hc F (by simpa using hF)
  | hold cmds => exact hc

/-- Settles O53: SEND alone writes a frame, and from the invariant its header is one the two-pass
emission made. -/
theorem everySentFrameIsCertified : Obligations.EverySentFrameIsCertified :=
  fun _ _ hi hc h => (step_moves h).keeps_sentCertified hi hc

/-! ### The two-pass header emission -/

/-- The header checksum stands in bytes 1 to 4 (R62). -/
theorem checksumBytes_headerBytes (h : Header) :
    ((headerBytes h).drop 1).take 4 = leBytes 4 h.headerChecksum.toNat := by
  rw [headerBytes_eq, List.drop_left' (length_leBytes 1 _), List.take_left' (length_leBytes 4 _)]

/-- The bytes before the header checksum do not depend on it. -/
theorem take_headerBytes_withHC (h : Header) (v : BitVec 32) :
    (headerBytes (withHC h v)).take 1 = (headerBytes h).take 1 := by
  rw [headerBytes_eq, headerBytes_eq, List.take_left' (length_leBytes 1 _),
    List.take_left' (length_leBytes 1 _)]
  rfl

/-- The bytes after the header checksum do not depend on it. -/
theorem drop_headerBytes_withHC (h : Header) (v : BitVec 32) :
    (headerBytes (withHC h v)).drop 5 = (headerBytes h).drop 5 := by
  have skip (v w : Nat) (rest : Bytes) :
      (leBytes 1 v ++ (leBytes 4 w ++ rest)).drop 5 = rest := rfl
  rw [headerBytes_eq, headerBytes_eq, skip, skip]
  rfl

/-- Settles O33: only the four checksum bytes of the two passes can differ, and the first pass does
not see the checksum it is given. -/
theorem bootstrapLaws : Obligations.BootstrapLaws := by
  intro Batch c h v b
  have decoded : decodeHeader b.final.toList = some b.header := by
    rw [← List.append_nil b.final.toList]
    exact headerDecodeAfterEncode b.header []
  have zero : leBytes 4 (0 : BitVec 32).toNat = [0, 0, 0, 0] := by decide
  refine ⟨decoded, rfl, rfl, ?before, ?zero, checksumBytes_headerBytes b.header, ?behind⟩
  case before => exact (take_headerBytes_withHC h _).trans (take_headerBytes_withHC h _).symm
  case zero => exact (checksumBytes_headerBytes (withHC h 0)).trans zero
  case behind => exact (drop_headerBytes_withHC h _).trans (drop_headerBytes_withHC h _).symm

/-! ### The payload check in bytes -/

/-- Values that fill the same bytes are equal. -/
theorem leBytes_toNat_inj {w n : Nat} (hw : w = 8 * n) {u v : BitVec w} :
    leBytes n u.toNat = leBytes n v.toNat ↔ u = v := by
  refine ⟨fun h => ?_, fun h => h ▸ rfl⟩
  have read := ofNat_rdLe_leBytes_append hw u []
  rw [h] at read
  exact read.symm.trans (ofNat_rdLe_leBytes_append hw v [])

/-- The stored payload checksum is the last field of the header (R62). -/
theorem payloadChecksumBytes_of_decodeHeader {B : Bytes} {h : Header}
    (hB : decodeHeader B = some h) :
    (B.drop 18).take 8 = leBytes 8 h.payloadChecksum.toNat := by
  have hlen := length_of_decodeHeader hB
  rw [decodeHeader_of_le hlen] at hB
  obtain rfl := Option.some.inj hB
  rw [toNat_ofNat_rdLe (n := 8) rfl, leBytes_rdLe (by omega)]

/-- Settles O34: the stored bytes are those of the claimed value, and equal bytes are equal
values. -/
theorem byteCompareFormAgrees : Obligations.ByteCompareFormAgrees := by
  intro Batch c B P h hB
  rw [verifyPayload_iff, payloadChecksumBytes_of_decodeHeader hB, leBytes_toNat_inj rfl, eq_comm]

/-! ### The codec sees verified payloads only -/

/-- PDEC alone consults the codec's decoder. -/
theorem after_eq_of_ne_pdec (h32 : c'.digest32 = c.digest32) (h64 : c'.digest64 = c.digest64)
    (hpe : c'.pencode = c.pencode) (hi : i ≠ .pdec) (s : Channel.State Batch) :
    after c i s = after c' i s := by
  obtain ⟨_, _, _, _⟩ := c
  obtain ⟨_, _, _, _⟩ := c'
  obtain rfl := h32
  obtain rfl := h64
  obtain rfl := hpe
  cases i with
  | pdec => exact absurd rfl hi
  | _ => rfl

/-- In PayloadVerified, the payload PDEC reads is the delivery's own and has passed its check
(R105). -/
theorem verified_of_payloadVerified (hi : Inv c s) (hs : s.st = .payloadVerified) :
    ∃ B h P, s.rx = some B ∧ s.hdr = some h ∧ s.pin = some P ∧ Verified c B h P := by
  obtain ⟨stage, -⟩ := hi
  simp only [StageHolds, hs] at stage
  obtain ⟨B, h, P, verified, regs⟩ := stage
  exact ⟨B, h, P, congrArg Registers.rx regs, congrArg Registers.hdr regs,
    congrArg Registers.pin regs, verified⟩

/-- Settles O40: PDEC alone consults the codec, in PayloadVerified, where `pin` holds the verified
payload. -/
theorem onlyVerifiedPayloadReachesCodec : Obligations.OnlyVerifiedPayloadReachesCodec := by
  intro Batch c c' i s h32 h64 hpe agree hi
  rw [execUnder_eq, execUnder_eq]
  by_cases hp : i = .pdec
  · subst hp
    by_cases he : s.enabled .pdec = true
    · have hs : s.st = .payloadVerified := by simp_all [Channel.State.enabled]
      obtain ⟨B, h, P, hr, hh, hpin, verified⟩ := verified_of_payloadVerified hi hs
      simp [after, Channel.State.command_of_enabled he, pdecEffect, hpin,
        agree B h P hr hh verified]
    · simp [after, Channel.State.command, he]
  · rw [after_eq_of_ne_pdec h32 h64 hpe hp]

/-! ### A whole exchange as the function EXCHANGE -/

/-- What a channel's observation becomes when an exchange comes to a result (R146). -/
def observationAfter (s : Channel.State Batch) : ExchangeResult → List Event × St × FaultCode
  | .frame F => (s.out ++ [.tx F], .sent, s.err)
  | .fault code => (s.out ++ [.fault code.code], .failed, code)

/-- The commands bring the state to the result, and leave the assembler as it is. -/
def ComesTo (c : Collaborators Batch) (is : List Instr) (s : Channel.State Batch)
    (r : ExchangeResult) : Prop :=
  ∃ t, runCommands c is s = .next t ∧ t.asm = s.asm ∧ observation t = observationAfter s r

/-- A command that outputs nothing leaves the result to those after it. -/
theorem ComesTo.cons {is : List Instr} {r : ExchangeResult} (ht : after c i s = t)
    (h : ComesTo c is t r) (asm : t.asm = s.asm := by rfl) (out : t.out = s.out := by rfl)
    (err : t.err = s.err := by rfl) : ComesTo c (i :: is) s r := by
  obtain ⟨u, run, hasm, hobs⟩ := h
  refine ⟨u, ?_, hasm.trans asm, hobs.trans ?_⟩
  · rw [← run, ← ht, runCommands, execUnder_eq]
  · cases r <;> simp only [observationAfter, out, err]

/-- A channel in Failed takes no step of an exchange (R174). -/
theorem runCommands_of_failed (hs : s.st = .failed) {is : List Instr}
    (his : is ⊆ Instr.exchangeSteps) : runCommands c is s = .next s := by
  induction is with
  | nil => rfl
  | cons i is ih =>
    obtain ⟨hi, his⟩ := List.cons_subset.1 his
    have dropped : after c i s = s := by
      obtain h | ⟨rfl, -⟩ | rfl := (after_moves c i s).of_failed_or_closed (.inl hs)
      · exact h
      · exact absurd hi (by decide)
      · exact absurd hi (by decide)
    rw [runCommands, execUnder_eq, dropped]
    exact ih his

/-- The fault a command takes is the result, whatever steps stand behind it. -/
theorem ComesTo.fault {code : FaultCode} {is : List Instr} (ht : after c i s = t.raise code)
    (his : is ⊆ Instr.exchangeSteps) (asm : t.asm = s.asm := by rfl)
    (out : t.out = s.out := by rfl) : ComesTo c (i :: is) s (.fault code) := by
  refine ⟨t.raise code, ?_, asm, ?_⟩
  · rw [runCommands, execUnder_eq, ht]
    exact runCommands_of_failed rfl his
  · simp [observation, observationAfter, out]

section Enabled

/-! Each step of an exchange has its effect in its own value of `st` (R66). -/

variable (hc : s.created = true)
include hc

theorem after_hdec (hs : s.st = .received) : after c .hdec s = hdecEffect s :=
  Channel.State.command_of_enabled (by simp [Channel.State.enabled, hc, hs])

theorem after_pver (hs : s.st = .headerDecoded) : after c .pver s = pverEffect c s :=
  Channel.State.command_of_enabled (by simp [Channel.State.enabled, hc, hs])

theorem after_pdec (hs : s.st = .payloadVerified) : after c .pdec s = pdecEffect c s :=
  Channel.State.command_of_enabled (by simp [Channel.State.enabled, hc, hs])

theorem after_xfrm (hs : s.st = .payloadDecoded) : after c .xfrm s = xfrmEffect s :=
  Channel.State.command_of_enabled (by simp [Channel.State.enabled, hc, hs])

theorem after_penc (hs : s.st = .transformed) : after c .penc s = pencEffect c s :=
  Channel.State.command_of_enabled (by simp [Channel.State.enabled, hc, hs])

theorem after_hfin (hs : s.st = .payloadEncoded) : after c .hfin s = hfinEffect c s :=
  Channel.State.command_of_enabled (by simp [Channel.State.enabled, hc, hs])

theorem after_send (hs : s.st = .headerFinalized) : after c .send s = sendEffect s :=
  Channel.State.command_of_enabled (by simp [Channel.State.enabled, hc, hs])

end Enabled

/-- What an outbound payload comes to: the length check, then the frame (R140, R144). -/
def finalResult (c : Collaborators Batch) (h : Header) (Q : Bytes) : ExchangeResult :=
  if 2 ^ 32 ≤ h.payloadLength.toNat + 4 then .fault .lengthOverflow
  else .frame ((bootHeader c (outboundHeader c h Q)).final.toList ++ Q)

/-- What a verified payload comes to (R134, R136, R138). -/
def verifiedResult (c : Collaborators Batch) (h : Header) (P : Bytes) : ExchangeResult :=
  match c.pdecode P with
  | none => .fault .codecFailure
  | some S => finalResult c h (c.pencode [S])

/-- What a delivery with a decoded header comes to: the slice, the check, and what the verified
payload comes to (R131). -/
def headedResult (c : Collaborators Batch) (B : Bytes) (h : Header) : ExchangeResult :=
  if B.length < 26 + h.payloadLength.toNat then .fault .shortReadPayload
  else if c.digest64 ((B.drop 26).take h.payloadLength.toNat) ≠ h.payloadChecksum then
    .fault .integrityFailure
  else verifiedResult c h ((B.drop 26).take h.payloadLength.toNat)

section Stages

/-! From each value of `st` on, the steps left come to the result that the registers decide. -/

variable {B P Q : Bytes} {h : Header} (hc : s.created = true)
include hc

theorem comesTo_of_headerFinalized {H : Bytes26} (hs : s.st = .headerFinalized)
    (hh : s.hbytes = some H) (hq : s.pout = some Q) :
    ComesTo c [.send] s (.frame (H.toList ++ Q)) := by
  have sent : after c .send s =
      Channel.State.emit { s with st := .sent } (.tx (H.toList ++ Q)) := by
    simp [after_send hc hs, sendEffect, hh, hq]
  refine ⟨_, execUnder_eq c .send s, ?_, ?_⟩ <;> rw [sent] <;> rfl

theorem comesTo_of_payloadEncoded (hs : s.st = .payloadEncoded) (hh : s.hdr = some h)
    (hq : s.pout = some Q) : ComesTo c [.hfin, .send] s (finalResult c h Q) := by
  have effect := after_hfin (c := c) hc hs
  simp only [hfinEffect, hh, hq, Channel.State.withRegister_some] at effect
  unfold finalResult
  split_ifs with overflow
  · exact .fault (effect.trans (if_pos overflow)) (by decide)
  · refine .cons (effect.trans (if_neg overflow)) (comesTo_of_headerFinalized ?_ rfl rfl rfl)
    exact hc

theorem comesTo_of_transformed {T : List (List Batch)} (hs : s.st = .transformed)
    (hh : s.hdr = some h) (ht : s.tseq = some T) :
    ComesTo c [.penc, .hfin, .send] s (finalResult c h (c.pencode T)) := by
  have effect := after_penc (c := c) hc hs
  simp only [pencEffect, ht, Channel.State.withRegister_some] at effect
  refine .cons effect (comesTo_of_payloadEncoded ?_ rfl ?_ rfl) <;> assumption

theorem comesTo_of_payloadDecoded {S : List Batch} (hs : s.st = .payloadDecoded)
    (hh : s.hdr = some h) (hd : s.sdec = some S) :
    ComesTo c [.xfrm, .penc, .hfin, .send] s (finalResult c h (c.pencode [S])) := by
  have effect := after_xfrm (c := c) hc hs
  simp only [xfrmEffect, hd, Channel.State.withRegister_some] at effect
  refine .cons effect (comesTo_of_transformed ?_ rfl ?_ rfl) <;> assumption

theorem comesTo_of_payloadVerified (hs : s.st = .payloadVerified) (hh : s.hdr = some h)
    (hp : s.pin = some P) :
    ComesTo c [.pdec, .xfrm, .penc, .hfin, .send] s (verifiedResult c h P) := by
  have effect := after_pdec (c := c) hc hs
  simp only [pdecEffect, hp, Channel.State.withRegister_some] at effect
  unfold verifiedResult
  cases hd : c.pdecode P with
  | none =>
    simp only [hd] at effect
    exact .fault effect (by decide)
  | some S =>
    simp only [hd] at effect
    refine .cons effect (comesTo_of_payloadDecoded ?_ rfl ?_ rfl) <;> assumption

theorem comesTo_of_headerDecoded (hs : s.st = .headerDecoded) (hr : s.rx = some B)
    (hh : s.hdr = some h) :
    ComesTo c [.pver, .pdec, .xfrm, .penc, .hfin, .send] s (headedResult c B h) := by
  have effect := after_pver (c := c) hc hs
  simp only [pverEffect, hr, hh, Channel.State.withRegister_some] at effect
  unfold headedResult
  split_ifs with short wrong
  · simp only [memRead_eq_none_iff.2 short] at effect
    exact .fault effect (by decide)
  · simp only [memRead_of_le (Nat.not_lt.1 short), verifyPayload_iff, if_neg wrong] at effect
    exact .fault effect (by decide)
  · simp only [memRead_of_le (Nat.not_lt.1 short), verifyPayload_iff,
      if_pos (not_not.1 wrong)] at effect
    refine .cons effect (comesTo_of_payloadVerified ?_ rfl rfl rfl)
    exact hc

/-- The seven steps of an exchange on a delivery come to what EXCHANGE says of it (R146). -/
theorem comesTo_exchange (hs : s.st = .received) (hr : s.rx = some B) :
    ComesTo c Instr.exchangeSteps s (exchange c B) := by
  have effect := after_hdec (c := c) hc hs
  simp only [hdecEffect, hr, Channel.State.withRegister_some] at effect
  unfold exchange
  cases hB : decodeHeader B with
  | none =>
    simp only [hB] at effect
    exact .fault effect (by decide)
  | some h =>
    simp only [hB] at effect
    refine .cons effect (comesTo_of_headerDecoded ?_ rfl rfl rfl)
    exact hc

end Stages

/-! ### The inbound header checksum -/

/-- Four bytes written over the header checksum of a delivery (R106). -/
def overwriteChecksum (B q : Bytes) : Bytes :=
  B.take 1 ++ q ++ B.drop 5

section Overwrite

variable {B q : Bytes} (hB : 5 ≤ B.length) (hq : q.length = 4)
include hB hq

theorem length_overwriteChecksum : (overwriteChecksum B q).length = B.length := by
  simp only [overwriteChecksum, List.length_append, List.length_take, List.length_drop]
  omega

/-- The bytes from offset 5 on are the delivery's own. -/
theorem drop_overwriteChecksum {n : Nat} (hn : 5 ≤ n) :
    (overwriteChecksum B q).drop n = B.drop n := by
  have front : (B.take 1 ++ q).length = 5 := by
    simp only [List.length_append, List.length_take]
    omega
  obtain ⟨k, rfl⟩ := Nat.exists_eq_add_of_le hn
  rw [overwriteChecksum, ← List.drop_drop, List.drop_left' front, List.drop_drop]

theorem rdLe_overwriteChecksum {off : Nat} (n : Nat) (hoff : 5 ≤ off) :
    rdLe (overwriteChecksum B q) off n = rdLe B off n := by
  rw [rdLe, rdLe, drop_overwriteChecksum hB hq hoff]

/-- The header of the delivery, but for its checksum. -/
theorem decodeHeader_overwriteChecksum : ∃ v,
    decodeHeader (overwriteChecksum B q) = (decodeHeader B).map (withHC · v) := by
  refine ⟨BitVec.ofNat 32 (rdLe (overwriteChecksum B q) 1 4), ?_⟩
  have hlen := length_overwriteChecksum hB hq
  by_cases short : B.length < 26
  · rw [(decodeHeader_eq_none_iff B).2 short, (decodeHeader_eq_none_iff _).2 (hlen ▸ short)]
    rfl
  · have whole := Nat.not_lt.1 short
    have version : rdLe (overwriteChecksum B q) 0 1 = rdLe B 0 1 := by
      have one : (B.take 1).length = 1 := List.length_take_of_le (by omega)
      simp [rdLe, overwriteChecksum, one]
    rw [decodeHeader_of_le whole, decodeHeader_of_le (hlen ▸ whole)]
    simp [rdLe_overwriteChecksum hB hq, version, withHC]

/-- EXCHANGE does not see the inbound header checksum (R106): it computes a new one (R107). -/
theorem exchange_overwriteChecksum (c : Collaborators Batch) :
    exchange c (overwriteChecksum B q) = exchange c B := by
  obtain ⟨v, hv⟩ := decodeHeader_overwriteChecksum hB hq
  unfold exchange
  rw [hv, length_overwriteChecksum hB hq, drop_overwriteChecksum hB hq (by omega)]
  cases decodeHeader B <;> rfl

end Overwrite

/-- The canonical exchange comes to what EXCHANGE says of its delivery (R69, R146). -/
theorem comesTo_xchg (hc : s.created = true) (hs : s.st = .idle ∨ s.st = .sent)
    (ha : s.asm = none) (B : Bytes) : ComesTo c (Instr.xchg B) s (exchange c B) := by
  have enabled : s.enabled (.deliver B) = true := by
    rcases hs with hs | hs <;>
      simp [Channel.State.enabled, Channel.State.busy, Channel.State.frameReady, St.busy, hc, hs,
        ha]
  have delivered : after c (.deliver B) s = deliverEffect B s :=
    Channel.State.command_of_enabled enabled
  simp only [deliverEffect, ha] at delivered
  exact .cons delivered (comesTo_exchange hc rfl rfl)

/-- Settles O50: both exchanges come to what EXCHANGE says of their deliveries, which is
the same. -/
theorem inboundHeaderChecksumIgnored : Obligations.InboundHeaderChecksumIgnored := by
  intro Batch c s t t' B q hc hs ha hB hq ht ht'
  obtain ⟨u, hu, -, obs⟩ := comesTo_xchg hc hs ha B
  obtain ⟨u', hu', -, obs'⟩ := comesTo_xchg hc hs ha (overwriteChecksum B q)
  obtain rfl := Host.Outcome.next.inj (hu.symm.trans ht)
  obtain rfl := Host.Outcome.next.inj (hu'.symm.trans ht')
  rw [obs, obs', exchange_overwriteChecksum hB hq]

end Sys2Proof.Machine
end

section
/-! Orchestrator (42_orchestrator R120 to R163): when a command's precondition holds, what each
command comes to, which turn a channel takes by itself, how a run ends, and what a whole exchange
comes to. -/

namespace Sys2Proof.Machine

open Sys2Proof.Safety

variable {Batch : Type} {c : Collaborators Batch} {i j : Instr} {s : Channel.State Batch}

/-! ### Preconditions -/

theorem St.busy_iff (st : St) :
    st.busy = true ↔
      st = .received ∨ st = .headerDecoded ∨ st = .payloadVerified ∨ st = .payloadDecoded ∨
        st = .transformed ∨ st = .payloadEncoded ∨ st = .headerFinalized := by
  cases st <;> simp [St.busy]

theorem busy_iff (hc : s.created = true) : s.busy = true ↔ ChannelBusy s := by
  simp only [Channel.State.busy, hc, Bool.true_and, Bool.or_eq_true, Bool.and_eq_true,
    St.busy_iff, St.ready_iff, Channel.State.frameReady_iff, or_assoc, ChannelBusy]

theorem not_busy_iff (hc : s.created = true) : s.busy = false ↔ ¬ ChannelBusy s := by
  rw [← busy_iff hc, Bool.not_eq_true]

/-- On a channel that exists, a command is enabled exactly when its precondition holds (R66). -/
theorem enabled_iff (hc : s.created = true) : s.enabled i = true ↔ Precondition s i := by
  cases i with
  | afrm => simp [Channel.State.enabled, Precondition, hc, Channel.State.frameReady_iff]
  | deliver | close | reset =>
    simp [Channel.State.enabled, Precondition, hc, not_busy_iff hc, or_assoc]
  | _ => simp [Channel.State.enabled, Precondition, hc]

theorem not_enabled_iff (hc : s.created = true) : s.enabled i = false ↔ ¬ Precondition s i := by
  rw [← enabled_iff hc, Bool.not_eq_true]

/-- The one block step that can be due in each value of `st` (R120). -/
def blockStepIn : St → Option Instr
  | .idle | .sent => some .afrm
  | .received => some .hdec
  | .headerDecoded => some .pver
  | .payloadVerified => some .pdec
  | .payloadDecoded => some .xfrm
  | .transformed => some .penc
  | .payloadEncoded => some .hfin
  | .headerFinalized => some .send
  | .failed | .closed => none

theorem blockStepIn_of_precondition (hi : i ∈ blockSteps) (hp : Precondition s i) :
    blockStepIn s.st = some i := by
  cases i with
  | afrm => rcases hp.1 with hs | hs <;> rw [hs] <;> rfl
  | deliver | close | reset => simp [blockSteps, Instr.exchangeSteps] at hi
  | _ => rw [show s.st = _ from hp]; rfl

theorem blockStep_unique (hi : i ∈ blockSteps) (hj : j ∈ blockSteps) (hpi : Precondition s i)
    (hpj : Precondition s j) : i = j :=
  Option.some.inj
    ((blockStepIn_of_precondition hi hpi).symm.trans (blockStepIn_of_precondition hj hpj))

theorem channelBusy_iff : ChannelBusy s ↔ ∃ i ∈ blockSteps, Precondition s i := by
  simp [blockSteps, Instr.exchangeSteps, ChannelBusy, Precondition]

theorem not_precondition_of_busy (hb : ChannelBusy s) (e : HostEvent) :
    ¬ Precondition s e.instr := by
  cases e <;> exact fun hp => hp.2 hb

/-- Settles O27: the preconditions are those of R66, `st` names the one block step that can be due,
and being busy is that one of them is. -/
theorem oneBlockStepWhenBusy : Obligations.OneBlockStepWhenBusy :=
  fun _ hc =>
    ⟨fun _ => enabled_iff hc, fun _ hi _ hj => blockStep_unique hi hj, channelBusy_iff,
      not_precondition_of_busy⟩

/-! ### Commands that are not enabled -/

theorem exec_of_after {i : Instr} {s t : State} (h : after Config.collaborators i s = t) :
    exec i s = .next t := by
  rw [exec_eq, h]

theorem after_of_not_enabled (he : s.enabled i = false) (ha : ¬ (i = .afrm ∧ s.asm = none)) :
    after c i s = s.notEnabled := by
  cases i with
  | afrm =>
    cases hasm : s.asm with
    | none => exact absurd ⟨rfl, hasm⟩ ha
    | some a =>
      simp only [after, hasm]
      exact Channel.State.command_of_not_enabled he
  | _ => exact Channel.State.command_of_not_enabled he

/-- Settles O17: the command is not enabled, and R122 says what then happens. -/
theorem commandNotEnabled : Obligations.CommandNotEnabled := by
  intro i s hc hp ha
  refine exec_of_after ?_
  have drops : s.drops = true ↔ s.st = .failed ∨ s.st = .closed := by
    simp [s.drops_eq_true_iff, hc]
  simp only [after_of_not_enabled ((not_enabled_iff hc).2 hp) ha, ← drops]
  rfl

/-- Settles O19: no host event's precondition holds in a busy channel, which is in neither Failed
nor Closed. -/
theorem hostEventWhileBusyFaults : Obligations.HostEventWhileBusyFaults := by
  intro e s hc hb
  have notAfrm : e.instr ≠ .afrm := by cases e <;> nofun
  have running : ¬ (s.st = .failed ∨ s.st = .closed) := by
    rintro (hs | hs) <;> simp [ChannelBusy, hs] at hb
  rw [commandNotEnabled e.instr s hc (not_precondition_of_busy hb e) fun h => notAfrm h.1,
    if_neg running]

/-! ### Host events -/

/-- Settles O2: RESET is enabled, and its effect writes every register. -/
theorem resetStartsChannel : Obligations.ResetStartsChannel := by
  refine ⟨rfl, fun s h => exec_of_after (Channel.State.command_of_enabled ?_)⟩
  cases hc : s.created with
  | false => simp [Channel.State.enabled, hc]
  | true => exact (enabled_iff hc).2 (h.resolve_left (by simp [hc]))

/-- Settles O16: CLOSE is enabled, and its effect emits both events and clears every register but
`err`. -/
theorem closeDisconnects : Obligations.CloseDisconnects := by
  refine ⟨rfl, fun s hc hs hb => exec_of_after ?_⟩
  have enabled : s.enabled .close = true := (enabled_iff hc).2 ⟨hs, hb⟩
  refine (Channel.State.command_of_enabled enabled).trans ?_
  simp only [closeEffect, Channel.State.emit, List.append_assoc]
  rfl

/-- In Idle and Sent the channel is busy only with a frame ready (R152). -/
theorem not_channelBusy_of_ready (hs : s.st = .idle ∨ s.st = .sent)
    (ha : ∀ a, s.asm = some a → a.amode ≠ .frameReady) : ¬ ChannelBusy s := by
  rcases hs with hs | hs <;> simpa [ChannelBusy, hs] using ha

/-- DELIVER is enabled in Idle and Sent unless a frame is ready (R121, R160). -/
theorem after_deliver (hc : s.created = true) (hs : s.st = .idle ∨ s.st = .sent)
    (ha : ∀ a, s.asm = some a → a.amode ≠ .frameReady) (B : Bytes) :
    after c (.deliver B) s = deliverEffect B s :=
  Channel.State.command_of_enabled ((enabled_iff hc).2 ⟨hs, not_channelBusy_of_ready hs ha⟩)

/-- Settles O12: DELIVER is enabled, and its effect starts an exchange. -/
theorem deliverStartsExchange : Obligations.DeliverStartsExchange := by
  refine ⟨fun _ => rfl, fun s B hc hs ha => exec_of_after ?_⟩
  simp [after_deliver hc hs (by simp [ha]), deliverEffect, ha]

/-- With the assembler, DELIVER appends to its buffer (R160). -/
theorem after_deliver_assembler {a : Assembler} (hc : s.created = true)
    (hs : s.st = .idle ∨ s.st = .sent) (ha : s.asm = some a) (hm : a.amode ≠ .frameReady)
    (B : Bytes) :
    after c (.deliver B) s = { s with asm := some ⟨readerState (a.abuf ++ B), a.abuf ++ B⟩ } := by
  rw [after_deliver hc hs (by simpa [ha] using hm), deliverEffect, ha]

/-- Settles O13: no bytes appended is the same buffer, with the same reader state. -/
theorem deliverFeedsAssembler : Obligations.DeliverFeedsAssembler := by
  intro s a B hc hs ha hm
  refine ⟨exec_of_after (after_deliver_assembler hc hs ha hm B), fun hr => exec_of_after ?_⟩
  rw [after_deliver_assembler hc hs ha hm, List.append_nil, ← hr, ← ha]

/-- Settles O43: the first piece leaves no frame ready, so the second is appended behind it. -/
theorem splitDeliveryIsOneDelivery : Obligations.SplitDeliveryIsOneDelivery := by
  intro s t a A B ha notWhole hc hs hm ht
  rw [exec_of_after (after_deliver_assembler hc hs ha hm A)] at ht
  obtain rfl := Host.Outcome.next.inj ht
  have second := after_deliver_assembler (c := Config.collaborators)
    (s := { s with asm := some ⟨readerState (a.abuf ++ A), a.abuf ++ A⟩ }) hc hs rfl notWhole B
  rw [exec_of_after second, exec_of_after (after_deliver_assembler hc hs ha hm (A ++ B)),
    List.append_assoc]

/-! ### The assembler -/

/-- Settles O14: the decoded payload length is the length field. -/
theorem readerStateOfBuffer : Obligations.ReaderStateOfBuffer := by
  intro A
  unfold readerState
  cases hA : decodeHeader A with
  | none => rw [if_pos ((decodeHeader_eq_none_iff A).1 hA)]
  | some h =>
    have field := payloadLength_of_decodeHeader hA
    rw [if_neg (Nat.not_lt.2 (length_of_decodeHeader hA)), ← field, BitVec.ofNat_toNat,
      BitVec.setWidth_eq]

theorem splitFrame_of_le {A : Bytes} (hA : 26 + rdLe A 6 4 ≤ A.length) :
    splitFrame A = some (A.take (26 + rdLe A 6 4), A.drop (26 + rdLe A 6 4)) := by
  cases hh : decodeHeader A with
  | none =>
    have := (decodeHeader_eq_none_iff A).1 hh
    omega
  | some h =>
    rw [← payloadLength_of_decodeHeader hh] at hA ⊢
    exact splitFrame_eq_some_iff.2 ⟨h, hh, hA, rfl, rfl⟩

/-- AFRM hands on the frame that its buffer splits into (R162). -/
theorem after_afrm {a : Assembler} {F rest : Bytes} (hc : s.created = true)
    (hs : s.st = .idle ∨ s.st = .sent) (ha : s.asm = some a) (hm : a.amode = .frameReady)
    (hf : splitFrame a.abuf = some (F, rest)) :
    after c .afrm s =
      { s.clearDerived with
        rx := some F, asm := some ⟨readerState rest, rest⟩, st := .received } := by
  have enabled : s.enabled .afrm = true := (enabled_iff hc).2 ⟨hs, a, ha, hm⟩
  simp only [after, Channel.State.command_of_enabled enabled, afrmEffect, ha, hf,
    Channel.State.withRegister_some]

/-- Settles O15: a whole frame in the buffer is split off, and without the assembler the code is
illegal. -/
theorem afrmHandsOnFrame : Obligations.AfrmHandsOnFrame := by
  refine ⟨rfl, fun s a hc hs ha hm hle => ?_, fun s ha => ?_⟩
  · exact exec_of_after (after_afrm hc hs ha hm (splitFrame_of_le hle))
  · refine exec_of_after ?_
    simp only [after, ha, illegalCommand_eq]

/-- Settles O42: with the assembler the delivery buffer is one whole frame, so a header and a
payload can be read from it. -/
theorem assemblerNeverShortReads : Obligations.AssemblerNeverShortReads := by
  intro i s t hi ha h
  obtain ⟨stage, -⟩ := hi
  cases exec_moves h with
  | hdecShort B _ hs hr hh =>
    simp only [StageHolds, hs] at stage
    obtain ⟨B', arrived, regs⟩ := stage
    obtain rfl := Option.some.inj (hr.symm.trans (congrArg Registers.rx regs))
    obtain ⟨h, hdec, -⟩ := splitFrame_eq_some_iff.1 (arrived ha)
    simp [hh] at hdec
  | pverShort B h _ hs hr hh hp =>
    simp only [StageHolds, hs] at stage
    obtain ⟨B', h', arrived, hdec, regs⟩ := stage
    obtain rfl := Option.some.inj (hr.symm.trans (congrArg Registers.rx regs))
    obtain rfl := Option.some.inj (hh.symm.trans (congrArg Registers.hdr regs))
    obtain ⟨h', hdec', hle, -⟩ := splitFrame_eq_some_iff.1 (arrived ha)
    obtain rfl := Option.some.inj (hdec.symm.trans hdec')
    have := memRead_eq_none_iff.1 hp
    omega
  | orderViolation | illegal | pverMismatch | pdecReject | hfinOverflow => exact .inr (by simp)
  | reset => exact .inr (by simp [resetEffect])
  | _ => exact .inl rfl

/-! ### The steps of an exchange -/

theorem execUnder_of_after {t : Channel.State Batch} (h : after c i s = t) :
    execUnder c i s = .next t := by
  rw [execUnder_eq, h]

/-- A register that holds a value supplies it, wherever else the register is named. -/
theorem withRegister_of_eq {α : Type} {register : Option α} {v : α} (h : register = some v)
    (next : α → Channel.State Batch) : s.withRegister register next = next v := by
  rw [h, Channel.State.withRegister_some]

/-- Settles O3: HDEC is enabled, and its effect decodes the header where 26 bytes are there. -/
theorem hdecDecodesHeader : Obligations.HdecDecodesHeader := by
  refine ⟨rfl, fun s B hc hs hr => ⟨fun whole => exec_of_after ?_, fun short => exec_of_after ?_⟩⟩
    <;> rw [after_hdec hc hs, hdecEffect, withRegister_of_eq hr]
  · rw [decodeHeader_of_le whole]
  · rw [(decodeHeader_eq_none_iff B).2 short]
    rfl

section Pver

variable {B : Bytes} {h : Header} (hr : s.rx = some B) (hh : s.hdr = some h)
include hr hh

theorem pverEffect_of_short (short : B.length < 26 + h.payloadLength.toNat) :
    pverEffect c s = s.raise .shortReadPayload := by
  rw [pverEffect, withRegister_of_eq hr, withRegister_of_eq hh]
  simp only [memRead_eq_none_iff.2 short]

theorem pverEffect_of_whole (whole : 26 + h.payloadLength.toNat ≤ B.length) :
    pverEffect c s =
      if c.digest64 ((B.drop 26).take h.payloadLength.toNat) = h.payloadChecksum then
        { s with
          pin := some ((B.drop 26).take h.payloadLength.toNat)
          st := .payloadVerified }
      else
        Channel.State.raise { s with pin := some ((B.drop 26).take h.payloadLength.toNat) }
          .integrityFailure := by
  rw [pverEffect, withRegister_of_eq hr, withRegister_of_eq hh]
  simp only [memRead_of_le whole, verifyPayload_iff]

end Pver

/-- Settles O4: PVER is enabled, and its effect slices the payload and then checks it. -/
theorem pverVerifiesPayload : Obligations.PverVerifiesPayload := by
  refine ⟨rfl, fun s B h hc hs hr hh => ?_⟩
  have effect := after_pver (c := Config.collaborators) hc hs
  refine ⟨fun short => ?_, fun whole wrong => ?_, fun whole right => ?_⟩
  · exact exec_of_after (effect.trans (pverEffect_of_short hr hh short))
  · exact exec_of_after ((effect.trans (pverEffect_of_whole hr hh whole)).trans (if_neg wrong))
  · exact exec_of_after ((effect.trans (pverEffect_of_whole hr hh whole)).trans (if_pos right))

/-- Settles O6: PDEC is enabled, and its effect follows the codec's answer. -/
theorem pdecUnderEveryCodec : Obligations.PdecUnderEveryCodec := by
  intro Batch c s P hc hs hp
  refine ⟨fun S accepted => execUnder_of_after ?_, fun rejected => execUnder_of_after ?_⟩ <;>
    rw [after_pdec hc hs, pdecEffect, withRegister_of_eq hp]
  · rw [accepted]
  · rw [rejected]
    rfl

/-- Settles O5: the machine is the one over any codec, at its own. -/
theorem pdecFollowsCodec : Obligations.PdecFollowsCodec := by
  refine ⟨rfl, fun s P hc hs hp => ?_⟩
  obtain ⟨accepted, rejected⟩ := pdecUnderEveryCodec _ Config.collaborators s P hc hs hp
  rw [exec_eq_execUnder]
  cases hd : Config.pdecode P with
  | none => exact rejected hd
  | some S => exact accepted S hd

theorem execUnder_xfrm {S : List Batch} (hc : s.created = true) (hs : s.st = .payloadDecoded)
    (hd : s.sdec = some S) :
    execUnder c .xfrm s = .next { s with tseq := some [S], st := .transformed } :=
  execUnder_of_after (by rw [after_xfrm hc hs, xfrmEffect, withRegister_of_eq hd])

/-- Settles O7: XFRM is enabled, and its effect nests the sequence; the machine is the one over any
batch type, at its own. -/
theorem xfrmNestsSequence : Obligations.XfrmNestsSequence :=
  ⟨rfl, fun s _ hc hs hd => (exec_eq_execUnder _ s).trans (execUnder_xfrm hc hs hd),
    fun _ _ _ _ => execUnder_xfrm⟩

theorem execUnder_penc {T : List (List Batch)} (hc : s.created = true) (hs : s.st = .transformed)
    (ht : s.tseq = some T) :
    execUnder c .penc s = .next { s with pout := some (c.pencode T), st := .payloadEncoded } :=
  execUnder_of_after (by rw [after_penc hc hs, pencEffect, withRegister_of_eq ht])

/-- Settles O8: PENC is enabled, and its effect encodes the sequence; the machine is the one over
any codec, at its own. -/
theorem pencEncodesSequence : Obligations.PencEncodesSequence :=
  ⟨rfl, fun s _ hc hs ht => (exec_eq_execUnder _ s).trans (execUnder_penc hc hs ht),
    fun _ _ _ _ => execUnder_penc⟩

/-- Settles O9: HFIN is enabled, and its effect checks the length and then makes the two passes. -/
theorem hfinFinalizesHeader : Obligations.HfinFinalizesHeader := by
  refine ⟨rfl, fun s h Q hc hs hh hq => ?_⟩
  have effect := after_hfin (c := Config.collaborators) hc hs
  rw [hfinEffect, withRegister_of_eq hh, withRegister_of_eq hq] at effect
  exact ⟨fun overflow => exec_of_after (effect.trans (if_pos overflow)),
    fun fits => exec_of_after (effect.trans (if_neg (Nat.not_le.2 fits)))⟩

/-- Settles O10: SEND is enabled, and its effect emits the one frame. -/
theorem sendEmitsWholeFrame : Obligations.SendEmitsWholeFrame := by
  refine ⟨rfl, fun s H Q hc hs hh hq => exec_of_after ?_⟩
  rw [after_send hc hs, sendEffect, withRegister_of_eq hh, withRegister_of_eq hq]
  rfl

/-! ### Steps -/

/-- Settles O25: the command of the stream is the turn. -/
theorem stepRunsDecodedCommand : Obligations.StepRunsDecodedCommand := by
  intro s i rest h
  rw [step_eq_stepUnder, stepUnder_of_decode h, exec_eq]

/-- Block steps are enabled on a channel that exists only (R200). -/
theorem precondition_of_enabled (hi : i ∈ blockSteps) (he : s.enabled i = true) :
    Precondition s i := by
  have hc : s.created = true := by
    cases i with
    | reset => simp [blockSteps, Instr.exchangeSteps] at hi
    | _ => exact (Bool.and_eq_true_iff.1 he).1
  exact (enabled_iff hc).1 he

theorem ownStep_of_precondition (hc : s.created = true) (hi : i ∈ blockSteps)
    (hp : Precondition s i) : s.ownStep = some i := by
  have found : s.ownStep.isSome = true :=
    List.find?_isSome.2 ⟨i, hi, (enabled_iff hc).2 hp⟩
  obtain ⟨j, hj⟩ := Option.isSome_iff_exists.1 found
  have first := List.mem_of_find?_eq_some hj
  rw [hj, blockStep_unique hi first hp (precondition_of_enabled first (List.find?_some hj))]

theorem ownStep_of_not_busy (hb : ¬ ChannelBusy s) : s.ownStep = none :=
  List.find?_eq_none.2 fun i hi he => hb (channelBusy_iff.2 ⟨i, hi, precondition_of_enabled hi he⟩)

theorem takeFirst_of_first {may : HostEvent → Bool} {older newer : List HostEvent} {e : HostEvent}
    (ho : ∀ x ∈ older, may x = false) (he : may e = true) :
    takeFirst may (older ++ e :: newer) = some (e, older ++ newer) := by
  induction older with
  | nil => simp [takeFirst, he]
  | cons x older ih =>
    obtain ⟨hx, ho⟩ := List.forall_mem_cons.1 ho
    simp [takeFirst, hx, ih ho]

theorem takeFirst_of_none {may : HostEvent → Bool} {q : List HostEvent}
    (hq : ∀ x ∈ q, may x = false) : takeFirst may q = none := by
  induction q with
  | nil => rfl
  | cons x q ih =>
    obtain ⟨hx, hq⟩ := List.forall_mem_cons.1 hq
    simp [takeFirst, hx, ih hq]

theorem turn_of_no_commands (hs : s.cmds = []) : s.turn = s.ownTurn := by
  rw [Channel.State.turn, hs, decode]

/-- Settles O26: the block step that is due is the one found; without one, the first enabled event
of the queue is. -/
theorem stepWithoutCommands : Obligations.StepWithoutCommands := by
  intro s hs
  refine ⟨fun i hi hc hp => ?_, fun older newer e hb hq ho he => ?_, fun hb hq => ?_⟩ <;>
    rw [step, turn_of_no_commands hs, Channel.State.ownTurn]
  · rw [ownStep_of_precondition hc hi hp]
  · rw [ownStep_of_not_busy hb, hq, takeFirst_of_first ho he]
  · rw [ownStep_of_not_busy hb, takeFirst_of_none hq]

/-! ### The end of a run -/

/-- In Idle and Sent with no frame ready, the buffer is empty or holds a part of a frame. -/
theorem clean_or_pending (hi : Inv c s) (hs : s.st = .idle ∨ s.st = .sent)
    (hb : ¬ ChannelBusy s) : Clean s ∨ Pending s := by
  obtain ⟨-, latched, reader, -, -⟩ := hi
  have noFault : s.err = .none := by
    rcases hs with hs | hs <;> exact err_of_faultLatched latched (by simp [hs]) (by simp [hs])
  by_cases empty : ∀ a, s.asm = some a → a.abuf = []
  · exact .inl ⟨noFault, hs.imp_right .inl, empty⟩
  · push Not at empty
    obtain ⟨a, ha, bytes⟩ := empty
    refine .inr ⟨noFault, a, ha, bytes, fun whole => hb (channelBusy_iff.2 ⟨.afrm, ?_, hs, ?_⟩)⟩
    · decide
    · exact ⟨a, ha, (reader a ha).trans whole⟩

/-- A closed channel is clean unless a fault was latched when it was closed (R151). -/
theorem clean_or_faulted_of_closed (hi : Inv c s) (hs : s.st = .closed) :
    Clean s ∨ s.err ≠ .none := by
  obtain ⟨-, -, -, -, emptied⟩ := hi
  by_cases he : s.err = .none
  · exact .inl ⟨he, .inr (.inr hs), fun a ha => by rw [emptied hs a ha]; rfl⟩
  · exact .inr he

/-- Settles O45: with nothing to take the channel holds its state, and `st`, not being one inside an
exchange, says which end it is. -/
theorem endOfRunIsClassified : Obligations.EndOfRunIsClassified := by
  intro s hi hc hended
  obtain ⟨notBusy, hcmds, waiting⟩ := hended
  have hb := (not_busy_iff hc).1 notBusy
  obtain ⟨-, -, hold⟩ := stepWithoutCommands s hcmds
  refine ⟨hold hb waiting, ?_⟩
  cases hs : s.st with
  | idle => exact (clean_or_pending hi (.inl hs) hb).imp_right fun h => .inr (.inl h)
  | sent => exact (clean_or_pending hi (.inr hs) hb).imp_right fun h => .inr (.inl h)
  | failed => exact .inr (.inl hs)
  | closed =>
    exact (clean_or_faulted_of_closed hi hs).imp_right fun he => .inr (.inr ⟨rfl, he⟩)
  | _ => exact absurd (by simp [ChannelBusy, hs]) hb

/-! ### The exchange -/

/-- Settles O46: the canonical exchange comes to what EXCHANGE says of its delivery. -/
theorem exchangeMatchesSpecFunction : Obligations.ExchangeMatchesSpecFunction := by
  intro Batch c s B hc hs ha
  obtain ⟨t, run, -, obs⟩ := comesTo_xchg (c := c) hc hs ha B
  refine ⟨t, run, obs.trans ?_⟩
  cases exchange c B <;> rfl

/-- Settles O47: AFRM starts the exchange on the frame, and the seven steps behind it come to what
EXCHANGE says and leave the assembler as AFRM left it. -/
theorem assembledExchangeMatchesSpecFunction :
    Obligations.AssembledExchangeMatchesSpecFunction := by
  intro Batch c s a F rest hc hs ha hm hf
  have handed := after_afrm (c := c) hc hs ha hm hf
  obtain ⟨t, run, asm, obs⟩ :=
    comesTo_exchange (c := c) (s := after c .afrm s) (B := F) (by rw [handed]; exact hc)
      (by rw [handed]) (by rw [handed])
  refine ⟨t, ?_, ?_, obs.trans ?_⟩
  · rw [runCommands, execUnder_eq]
    exact run
  · rw [asm, handed]
  · rw [handed]
    cases exchange c F <;> rfl

/-- A delivery whose exchange answers a frame passed every check, and the frame is the two-pass
header followed by the encoded payload (R146). -/
theorem of_exchange_eq_frame {B F : Bytes} (h : exchange c B = .frame F) :
    ∃ hdr S, decodeHeader B = some hdr ∧ 26 + hdr.payloadLength.toNat ≤ B.length ∧
      hdr.payloadLength.toNat + 4 < 2 ^ 32 ∧
      c.pdecode ((B.drop 26).take hdr.payloadLength.toNat) = some S ∧
      F = (bootHeader c (outboundHeader c hdr (c.pencode [S]))).final.toList ++ c.pencode [S] := by
  unfold exchange at h
  cases hB : decodeHeader B with
  | none => simp [hB] at h
  | some hdr =>
    simp only [hB] at h
    cases hd : c.pdecode ((B.drop 26).take hdr.payloadLength.toNat) with
    | none =>
      simp only [hd] at h
      split_ifs at h
    | some S =>
      simp only [hd] at h
      split_ifs at h with short wrong overflow
      exact ⟨hdr, S, rfl, Nat.not_lt.1 short, Nat.not_le.1 overflow, hd,
        (ExchangeResult.frame.inj h).symm⟩

/-- A frame of the two-pass emission whose header claims its payload's digest is well formed exactly
when the header's length is the payload's (R111). -/
theorem wellFormedFrame_bootHeader_iff {h : Header} {Q : Bytes}
    (hq : h.payloadChecksum = c.digest64 Q) :
    WellFormedFrame c ((bootHeader c h).final.toList ++ Q) ↔ Q.length = h.payloadLength.toNat := by
  have decoded := headerDecodeAfterEncode (withHC h (headerCheck c h)) Q
  have payload : ((bootHeader c h).final.toList ++ Q).drop 26 = Q :=
    List.drop_left' (bootHeader c h).final.size_eq
  constructor
  · rintro ⟨hf, hdec, -, hlen, -⟩
    obtain rfl := Option.some.inj (decoded.symm.trans hdec)
    rwa [payload] at hlen
  · intro hlen
    exact ⟨_, decoded, by rw [payload]; exact hq, by rw [payload]; exact hlen, rfl⟩

/-- The outbound length is the inbound one plus 4, where that fits (R140). -/
theorem payloadLength_outboundHeader {h : Header} (hl : h.payloadLength.toNat + 4 < 2 ^ 32)
    (Q : Bytes) : (outboundHeader c h Q).payloadLength.toNat = h.payloadLength.toNat + 4 :=
  (BitVec.toNat_ofNat _ _).trans (Nat.mod_eq_of_lt hl)

/-- Settles O48: the frame is the two-pass header over the outbound length and digest, then the
encoded payload. -/
theorem successfulExchangeProperties : Obligations.SuccessfulExchangeProperties := by
  intro Batch c B F h hF hB
  obtain ⟨h', S, hB', hle, hl, hd, rfl⟩ := of_exchange_eq_frame hF
  obtain rfl := Option.some.inj (hB.symm.trans hB')
  have length := payloadLength_outboundHeader (c := c) hl (c.pencode [S])
  have payload :
      ((bootHeader c (outboundHeader c h (c.pencode [S]))).final.toList ++ c.pencode [S]).drop 26 =
        c.pencode [S] :=
    List.drop_left' (bootHeader c _).final.size_eq
  have inbound : ((B.drop 26).take h.payloadLength.toNat).length = h.payloadLength.toNat := by
    rw [List.length_take, List.length_drop]
    omega
  refine ⟨_, S, headerDecodeAfterEncode _ _, length, hd, payload, ?_, rfl, rfl, rfl, rfl, rfl, rfl,
    ?_⟩
  · intro decode2 roundTrip
    rw [payload, roundTrip]
  · rw [wellFormedFrame_bootHeader_iff rfl, length, inbound]

/-- Settles O49: CODEC-NEST4 is the length condition that is left. -/
theorem nest4FramesAreWellFormed : Obligations.Nest4FramesAreWellFormed := by
  intro Batch c B F nest hF
  obtain ⟨h, -, hB, -⟩ := of_exchange_eq_frame hF
  obtain ⟨_, S, -, -, hd, -, -, -, -, -, -, -, -, wellFormed⟩ :=
    successfulExchangeProperties Batch c B F h hF hB
  exact wellFormed.2 (nest _ _ hd)

end Sys2Proof.Machine
end

section
/-! Exceptions (60_exceptions R174): an exchange whose integrity check fails ends at PVER, before
the codec is consulted. -/

namespace Sys2Proof.Machine

variable {Batch : Type} {c : Collaborators Batch} {s : Channel.State Batch} {B : Bytes} {h : Header}

theorem runCommands_cons (c : Collaborators Batch) (i : Instr) (is : List Instr)
    (s : Channel.State Batch) : runCommands c (i :: is) s = runCommands c is (after c i s) := by
  rw [runCommands, execUnder_eq]

/-- PVER fails on a payload whose digest is not the claimed one, be it whole or cut short (R131). -/
theorem pverEffect_st_of_wrong_digest (hr : s.rx = some B) (hh : s.hdr = some h)
    (wrong : c.digest64 ((B.drop 26).take h.payloadLength.toNat) ≠ h.payloadChecksum) :
    (pverEffect c s).st = .failed := by
  by_cases whole : 26 + h.payloadLength.toNat ≤ B.length
  · rw [pverEffect_of_whole hr hh whole, if_neg wrong]
    rfl
  · rw [pverEffect_of_short hr hh (Nat.not_le.1 whole)]
    rfl

/-- The state in which PVER meets a delivery whose header decodes (R121, R125). -/
def headed (B : Bytes) (h : Header) (s : Channel.State Batch) : Channel.State Batch :=
  { s.clearDerived with rx := some B, hdr := some h, st := .headerDecoded }

/-- DELIVER and HDEC bring the canonical exchange to PVER (R121, R125). -/
theorem runCommands_xchg_of_decodeHeader (hc : s.created = true) (hs : s.st = .idle ∨ s.st = .sent)
    (ha : s.asm = none) (hB : decodeHeader B = some h) :
    runCommands c (Instr.xchg B) s =
      runCommands c [.pver, .pdec, .xfrm, .penc, .hfin, .send] (headed B h s) := by
  have decoded : after c .hdec (deliverEffect B s) = headed B h s := by
    simp only [deliverEffect, ha]
    rw [after_hdec (by exact hc) (by rfl), hdecEffect, Channel.State.withRegister_some, hB, headed]
  rw [Instr.xchg, Instr.exchangeSteps, runCommands_cons, after_deliver hc hs (by simp [ha]),
    runCommands_cons, decoded]

/-- An exchange whose check fails ends in the state PVER leaves: the steps behind it are dropped
(R122, R174). -/
theorem runCommands_xchg_of_wrong_digest (hc : s.created = true) (hs : s.st = .idle ∨ s.st = .sent)
    (ha : s.asm = none) (hB : decodeHeader B = some h)
    (wrong : c.digest64 ((B.drop 26).take h.payloadLength.toNat) ≠ h.payloadChecksum) :
    runCommands c (Instr.xchg B) s = .next (after c .pver (headed B h s)) := by
  have failed : (after c .pver (headed B h s)).st = .failed := by
    rw [after_pver (by exact hc) (by rfl)]
    exact pverEffect_st_of_wrong_digest rfl rfl wrong
  rw [runCommands_xchg_of_decodeHeader hc hs ha hB, runCommands_cons]
  exact runCommands_of_failed failed (by decide)

/-- Settles O41: both exchanges end in the state PVER leaves, and PVER consults no codec. -/
theorem failedCheckNeverReachesCodec : Obligations.FailedCheckNeverReachesCodec := by
  intro Batch c c' s B h h32 h64 hpe hc hs ha hB wrong
  rw [runCommands_xchg_of_wrong_digest hc hs ha hB wrong,
    runCommands_xchg_of_wrong_digest hc hs ha hB (h64 ▸ wrong),
    after_eq_of_ne_pdec h32 h64 hpe (by decide)]

end Sys2Proof.Machine
end

section
/-! Reset and hazards (70_reset_and_hazards R200, R210): a channel before its first RESET, and how
soon an exchange that runs by itself is over. -/

namespace Sys2Proof.Machine

open Sys2Proof.Safety

variable {Batch : Type} {c : Collaborators Batch} {i : Instr} {s t : Channel.State Batch}

/-! ### Before the first RESET -/

/-- Every move but a drop and RESET needs a channel that exists. -/
theorem Moves.of_not_created (h : Moves c s i t) (hc : s.created = false) (hi : i ≠ .reset) :
    t = s := by
  cases h with
  | dropped => rfl
  | orderViolation _ hd | illegal _ hd => simp [created_of_not_drops hd] at hc
  | reset => exact absurd rfl hi
  | _ => simp_all

/-- Settles O18: on a channel that does not exist, the only move but RESET's is the drop. -/
theorem nothingBeforeFirstReset : Obligations.NothingBeforeFirstReset :=
  fun i s hc hi => exec_of_after ((after_moves _ i s).of_not_created hc hi)

/-! ### The end of an exchange -/

/-- The exchange states have the values 1 to 7 (R22, R152). -/
theorem St.busy_iff_code (st : St) :
    st.busy = true ↔ 1 ≤ st.code.toNat ∧ st.code.toNat ≤ 7 := by
  cases st <;> decide

theorem drops_of_busy (hc : s.created = true) (hb : s.st.busy = true) : s.drops = false :=
  drops_of_st hc rfl (fun hf => by simp [hf, St.busy] at hb) fun hk => by simp [hk, St.busy] at hb

/-- No command leaves an exchange but for Sent or Failed: one that does not fault moves the
sequencer to its next value (R22, R120), and takes nothing off the stream. -/
theorem Moves.of_busy (h : Moves c s i t) (hc : s.created = true) (hb : s.st.busy = true) :
    t.st = .failed ∨
      (t.created = true ∧ t.cmds = s.cmds) ∧ (t.st = .sent ∨ t.st.busy = true) ∧
        t.st.code.toNat = s.st.code.toNat + 1 := by
  cases h with
  | dropped _ hd => simp [drops_of_busy hc hb] at hd
  | hdec _ _ _ hs | pver _ _ _ _ hs | pdec _ _ _ hs | xfrm _ _ hs | penc _ _ hs
  | hfin _ _ _ hs | send _ _ _ hs => exact .inr ⟨⟨hc, rfl⟩, by simp [hs, St.busy, St.code]⟩
  | afrm _ _ _ _ hs | deliver _ _ hs | deliverBuffer _ _ _ hs =>
    rcases hs with hs | hs <;> simp [hs, St.busy] at hb
  | close _ hs => rcases hs with hs | hs | hs <;> simp [hs, St.busy] at hb
  | reset he =>
    rcases st_of_reset_enabled hc he with hs | hs | hs | hs <;> simp [hs, St.busy] at hb
  | _ => exact .inl rfl

/-- With an empty stream, the step inside an exchange is a move: the block step that is due (R20). -/
theorem step_moves_of_busy {s : State} (hc : s.created = true) (hb : s.st.busy = true)
    (hs : s.cmds = []) : ∃ i t, step s = .next t ∧ Moves Config.collaborators s i t := by
  have inExchange : s.busy = true := by simp [Channel.State.busy, hc, hb]
  obtain ⟨i, hi, due⟩ := channelBusy_iff.1 ((busy_iff hc).1 inExchange)
  obtain ⟨own, -, -⟩ := stepWithoutCommands s hs
  exact ⟨i, _, (own i hi hc due).trans (exec_eq i s), after_moves _ i s⟩

/-- Some number of steps, up to `n`, brings the machine to Sent or Failed. -/
def EndsWithin (n : Nat) (s : State) : Prop :=
  ∃ k ≤ n, ∃ t : State, Host.Core.run core k s = .next t ∧ (t.st = .sent ∨ t.st = .failed)

theorem endsWithin_of_ended {s : State} (n : Nat) (h : s.st = .sent ∨ s.st = .failed) :
    EndsWithin n s :=
  ⟨0, n.zero_le, s, rfl, h⟩

theorem run_succ_of_step {M : Host.Core} {s t : M.State} (h : M.step s = .next t) (k : Nat) :
    M.run (k + 1) s = M.run k t := by
  rw [Host.Core.run, h]

theorem EndsWithin.of_step {n : Nat} {s t : State} (h : step s = .next t) (ht : EndsWithin n t) :
    EndsWithin (n + 1) s := by
  obtain ⟨k, hk, u, run, ended⟩ := ht
  exact ⟨k + 1, Nat.succ_le_succ hk, u, (run_succ_of_step h k).trans run, ended⟩

/-- The value of `st` counts the block steps: Sent has the value 8, and each step adds one or
faults. -/
theorem endsWithin_of_busy {n : Nat} {s : State} (hc : s.created = true)
    (hb : s.st.busy = true) (hs : s.cmds = []) (hn : 8 ≤ s.st.code.toNat + n) :
    EndsWithin n s := by
  induction n generalizing s with
  | zero => exact absurd ((St.busy_iff_code _).1 hb).2 (by omega)
  | succ n ih =>
    obtain ⟨i, t, next, move⟩ := step_moves_of_busy hc hb hs
    refine .of_step next ?_
    obtain failed | ⟨⟨created, stream⟩, sent | busy, value⟩ := move.of_busy hc hb
    · exact endsWithin_of_ended n (.inr failed)
    · exact endsWithin_of_ended n (.inl sent)
    · exact ih created busy (stream.trans hs) (by omega)

/-- Settles O54: inside an exchange the value of `st` is at least that of Received, 1. -/
theorem exchangeEndsWithinSevenSteps : Obligations.ExchangeEndsWithinSevenSteps := by
  intro s hc hb hs
  obtain ⟨started, -⟩ := (St.busy_iff_code _).1 hb
  exact endsWithin_of_busy hc hb hs (by omega)

end Sys2Proof.Machine
end
